-- ==== Sys2Proof/Word.lean ====
section
/-! DEFINITION. The three bit-vector types of the core and nothing else: a byte (00_scope.md R8), a 32-bit register or
packed Word (R9) and a byte offset in the 4 KiB register window (20_memory.md R50). Everything computed from them stands
in Decode.lean or under Machine/. -/

namespace Sys2Proof

/-- "an 8-bit unsigned value" (R8). -/
abbrev Byte := BitVec 8

/-- A 32-bit register, or a Word of four byte lanes packed with lane 0 in bits 31:24 (R9, R54). -/
abbrev Word := BitVec 32

/-- A byte offset 0x000..0xFFF inside the register window (R50). -/
abbrev Offset := BitVec 12

end Sys2Proof
end

