-- ==== Sys2Proof/Config.lean ====
section
/-! DEFINITION. What the spec leaves open: the draws of `any` (00_scope.md R11, 93_implementation_defined.md part 1) and
the OPEN parameter AES_BASE (20_memory.md R50). Each is a constant with no body, so no proof can see a value of it. The
OPEN parameters RESET_PROTOCOL and LATENCY touch no state of this model (notes/assumptions/15.md). -/

namespace Sys2Proof

/-- The word that draw number `n` of a host read returns (R170: "Each `any` is a fresh draw on each read"). Free value,
notes/assumptions/4.md. -/
opaque Config.freeWord : Nat → Word

/-- Byte `lane` of the State after a reset that is draw number `n` (R33, R230: "ST becomes `any`"). Free value,
notes/assumptions/6.md. -/
opaque Config.freeByte (n lane : Nat) : Byte

/-- The window's place on the host bus, the OPEN parameter of D4 (R50). -/
opaque Config.AES_BASE : Nat

end Sys2Proof
end

