-- ==== Sys2Proof/Syntax.lean ====
section
/-! DEFINITION. The operations of the core, one constructor for each row of spec/opcode_table.json (30_encoding.md R80):
four command values, two host transactions, four engine micro-steps and the reset input. -/

namespace Sys2Proof

/-- One operation of the core. A command word carries no operand (R72): its bits 31:2 are ignored (R70), so the four
command constructors have no field (notes/assumptions/10.md). -/
inductive Instr where
  /-- CTRL written with CMD = 0b00 (R176). -/
  | nop
  /-- CTRL written with CMD = 0b01 (R177). -/
  | expandKey
  /-- CTRL written with CMD = 0b10 (R178). -/
  | encryptBlock
  /-- CTRL written with CMD = 0b11 (R179). -/
  | cmdReserved
  /-- The host write transaction of `data` at `addr` (R171). -/
  | wr (addr : Offset) (data : Word)
  /-- The host read transaction at `addr` (R170). -/
  | rd (addr : Offset)
  /-- One schedule word, phase = EXPAND (R181). -/
  | kexpStep
  /-- The initial AddRoundKey, phase = ENCRYPT and RND = 0 (R182). -/
  | encInitial
  /-- One main round, phase = ENCRYPT and 1 ≤ RND ≤ SNR−1 (R183). -/
  | encRound
  /-- The final round, phase = ENCRYPT and RND = SNR (R184). -/
  | encFinal
  /-- The input `rst` asserted (R230). -/
  | reset
deriving DecidableEq, Repr

end Sys2Proof
end

