-- ==== Sys2Proof/WellFormed.lean ====
section
/-! DEFINITION. Which operations are inside the interface: a host transaction's offset is aligned (20_memory.md R57,
30_encoding.md R77). Every other operation is well formed as it stands. -/

namespace Sys2Proof

/-- `addr[1:0] = 00` (R57). -/
def aligned (addr : Offset) : Bool := addr.extractLsb' 0 2 == 0#2

/-- The check of an operation's fields. -/
def Instr.wf : Instr → Bool
  | .nop => true
  | .expandKey => true
  | .encryptBlock => true
  | .cmdReserved => true
  | .wr addr _ => aligned addr
  | .rd addr => aligned addr
  | .kexpStep => true
  | .encInitial => true
  | .encRound => true
  | .encFinal => true
  | .reset => true

end Sys2Proof
end

