-- ==== Sys2Proof/Decode.lean ====
section
/-! DEFINITION. Decoding and encoding in the four formats of 30_encoding.md R80: the 32-bit CTRL command word (R70, R71),
the 45-bit host transaction word (R77), the sequencer state that selects an engine micro-step (R76) and the reset signal
(R230). Decoding is total and rejects by name. -/

namespace Sys2Proof

/-- The sequencer phase (10_state.md R27). -/
inductive Phase where
  | idle
  | expand
  | encrypt
deriving DecidableEq, Repr

/-- What selects an operation, in the format of its opcode-table row (R80). -/
inductive Form where
  /-- A value written to CTRL (R70). -/
  | ctrl (v : Word)
  /-- A host transaction of `size` bits with the transaction word `w` of R77. -/
  | bus (size : Nat) (w : BitVec 45)
  /-- The sequencer state of R76. -/
  | engine (phase : Phase) (rnd snr : BitVec 4)
  /-- The input `rst` asserted (R230). -/
  | signal
deriving DecidableEq, Repr

/-- Why a form selects no operation. -/
inductive DecodeError where
  /-- A transaction that is not 32 bits wide (R57). -/
  | wrongSize
  /-- A transaction with `addr[1:0] ≠ 00` (R57). -/
  | misaligned
  /-- phase = IDLE: "no step enabled" (R76). -/
  | engineIdle
  /-- phase = ENCRYPT and RND > SNR: "No other combination is reachable" (R76). -/
  | noMicroStep
deriving DecidableEq, Repr

/-- The four values of the CMD field (R70). -/
inductive Cmd where
  | nop
  | expandKey
  | encryptBlock
  | reserved
deriving DecidableEq, Repr

/-- `cmd = v[1:0]`; `v[31:2]` never affects the result (R71). -/
def cmdOf (v : Word) : Cmd :=
  if v.extractLsb' 0 2 = 0#2 then .nop
  else if v.extractLsb' 0 2 = 1#2 then .expandKey
  else if v.extractLsb' 0 2 = 2#2 then .encryptBlock
  else .reserved

/-- The operation a value written to CTRL selects (R71, total). -/
def decodeCtrl (v : Word) : Instr :=
  match cmdOf v with
  | .nop => .nop
  | .expandKey => .expandKey
  | .encryptBlock => .encryptBlock
  | .reserved => .cmdReserved

/-- Bit 44 of a transaction word: 1 = write, 0 = read (R77). -/
def busWrite (w : BitVec 45) : Bool := w.getLsbD 44

/-- Bits 43:32 of a transaction word (R77). -/
def busAddr (w : BitVec 45) : Offset := w.extractLsb' 32 12

/-- Bits 31:0 of a transaction word (R77). A read ignores them (notes/assumptions/11.md). -/
def busData (w : BitVec 45) : Word := w.extractLsb' 0 32

/-- The transaction word `{W, addr[11:0], data[31:0]}` (R77). -/
def busWord (write : Bool) (addr : Offset) (data : Word) : BitVec 45 := BitVec.ofBool write ++ addr ++ data

/-- The operation a host transaction selects, or why it is outside the interface (R57, R77). -/
def decodeBus (size : Nat) (w : BitVec 45) : Except DecodeError Instr :=
  if size ≠ 32 then .error .wrongSize
  else if aligned (busAddr w) then
    .ok (if busWrite w then .wr (busAddr w) (busData w) else .rd (busAddr w))
  else .error .misaligned

/-- The micro-step the sequencer state selects: the table of R76, row by row. -/
def decodeEngine (phase : Phase) (rnd snr : BitVec 4) : Except DecodeError Instr :=
  match phase with
  | .idle => .error .engineIdle
  | .expand => .ok .kexpStep
  | .encrypt =>
    if rnd = 0#4 then .ok .encInitial
    else if rnd.toNat < snr.toNat then .ok .encRound
    else if rnd = snr then .ok .encFinal
    else .error .noMicroStep

/-- The decoder of all four formats (R80). -/
def decode : Form → Except DecodeError Instr
  | .ctrl v => .ok (decodeCtrl v)
  | .bus size w => decodeBus size w
  | .engine phase rnd snr => decodeEngine phase rnd snr
  | .signal => .ok .reset

/-- A form that selects the operation. Reserved CTRL bits are written 0 ("software should write 0", R70) and a read's
data field is 0 (R77). For a micro-step it is one sequencer state of its R76 row. -/
def encode : Instr → Form
  | .nop => .ctrl 0x00000000#32
  | .expandKey => .ctrl 0x00000001#32
  | .encryptBlock => .ctrl 0x00000002#32
  | .cmdReserved => .ctrl 0x00000003#32
  | .wr addr data => .bus 32 (busWord true addr data)
  | .rd addr => .bus 32 (busWord false addr 0#32)
  | .kexpStep => .engine .expand 0#4 0#4
  | .encInitial => .engine .encrypt 0#4 10#4
  | .encRound => .engine .encrypt 1#4 10#4
  | .encFinal => .engine .encrypt 10#4 10#4
  | .reset => .signal

/-- The form that bits numbered as spec/opcode_table.json numbers them stand for: up to 32 bits a CTRL word, up to 48 a
transaction word whose bits 47:45 are 0 (notes/assumptions/12.md). The ENGINE and SIGNAL rows have no bits. -/
def formOfTableWord (nbits w : Nat) : Option Form :=
  if nbits = 0 then none
  else if nbits ≤ 32 then
    if w < 2 ^ 32 then some (.ctrl (BitVec.ofNat 32 w)) else none
  else if nbits ≤ 48 then
    if w < 2 ^ 45 then some (.bus 32 (BitVec.ofNat 45 w)) else none
  else none

/-- The operation the decoder reads from a word of the opcode table, none where it refuses. -/
def decodeTableWord (nbits w : Nat) : Option Instr :=
  match formOfTableWord nbits w with
  | none => none
  | some f =>
    match decode f with
    | .ok i => some i
    | .error _ => none

end Sys2Proof
end

