-- ==== Sys2Proof/Machine/State.lean ====
section
/-! DEFINITION. The state of the core, with the fields of 10_state.md R38 under the spec's own names, the order in which
the three agents act (00_scope.md R13) and what the host has read; the reasons a step can stop; and the state after
reset (70_reset_and_hazards.md R230). -/

namespace Sys2Proof.Machine

/-- One turn of an agent in the one total order of R13 and R59 (notes/assumptions/1.md). -/
inductive Turn where
  /-- The host writes a command word to CTRL (R32, R70). -/
  | ctrl (v : Word)
  /-- The host performs a transaction of `size` bits with the transaction word `w` (R77). -/
  | bus (size : Nat) (w : BitVec 45)
  /-- The engine takes a step (R180). -/
  | engine
  /-- The input `rst` is asserted (R230). -/
  | rst
deriving DecidableEq, Repr

/-- Everything the core holds, and the model's own three fields. -/
structure State where
  /-- KEYCFG[3:0], the declared key class (R21). -/
  KEYCFG_NK : BitVec 4
  /-- KEYCFG[13:8], the declared key byte count (R21). -/
  KEYCFG_KEYLEN : BitVec 6
  /-- KEY0–KEY7 (R22). -/
  KEY : Vector Word 8
  /-- DIN0–DIN3 (R23). -/
  DIN : Vector Word 4
  /-- DOUT0–DOUT3 (R24). -/
  DOUT : Vector Word 4
  /-- RK[0..59], each `defined v` or `undefined` (R25). -/
  RK : Vector (Option Word) 60
  /-- The sequencer phase (R27). -/
  phase : Phase
  /-- R28. -/
  DONE : Bool
  /-- R29. -/
  KEY_VALID : Bool
  /-- The code of the last error recorded (R30). -/
  ERR : BitVec 3
  /-- The key class of the schedule in RK (R31). -/
  SNK : BitVec 4
  /-- The round count of the schedule in RK (R31). -/
  SNR : BitVec 4
  /-- The cipher State: `s[r][c] = ST[r + 4·c]` (R33). -/
  ST : Vector Byte 16
  /-- The next schedule word to compute (R34). -/
  KI : BitVec 6
  /-- The next round to apply (R34). -/
  RND : BitVec 4
  /-- The model's own: the turns still to come, the next one first. -/
  turns : List Turn
  /-- The model's own: the values host reads have returned, the newest first (R245). -/
  reads : List Word
  /-- The model's own: how many free values have been drawn. -/
  draws : Nat
deriving DecidableEq, Repr

/-- A stuck state. Both are raised by the engine alone, in states that no run from reset reaches (R37); the machine of
the spec has no such state, so stopping there is safe (notes/assumptions/8.md). -/
inductive Fault where
  /-- The engine's turn finds a sequencer state that R76 lists no micro-step for. Safe. -/
  | sequencerUnreachable
  /-- A micro-step's operands are outside R37: an index out of range or an `undefined` RK word. Safe. -/
  | engineOperands
deriving DecidableEq, Repr

/-- The machine has no step for what is asked of it. -/
inductive Refusal where
  /-- An operation without a meaning, raised by exec's arm alone. Safe. -/
  | notModelled (mnemonic : String)
  /-- A host transaction that is not 32 bits wide, raised by the transaction (R57: "the model **refuses** it"). Safe. -/
  | transactionSize
  /-- A host transaction with `addr[1:0] ≠ 00`, raised by RD and WR (R57). Safe. -/
  | transactionMisaligned
  /-- A micro-step that the sequencer state does not select, raised by that micro-step (R76, R180); `step` never asks for
  one. Safe (notes/assumptions/9.md). -/
  | microStepNotSelected
deriving DecidableEq, Repr

/-- The State bytes after the reset that is draw number `n` (R33, R230). -/
def State.freeST (n : Nat) : Vector Byte 16 := Vector.ofFn fun i => Config.freeByte n i.val

/-- The machine right after reset (R230), nothing placed: no turn to come, nothing read. The reset itself is draw 0. -/
def State.reset : State where
  KEYCFG_NK := 0#4
  KEYCFG_KEYLEN := 0#6
  KEY := Vector.replicate 8 0#32
  DIN := Vector.replicate 4 0#32
  DOUT := Vector.replicate 4 0#32
  RK := Vector.replicate 60 none
  phase := .idle
  DONE := false
  KEY_VALID := false
  ERR := 0#3
  SNK := 0#4
  SNR := 0#4
  ST := State.freeST 0
  KI := 0#6
  RND := 0#4
  turns := []
  reads := []
  draws := 1

end Sys2Proof.Machine
end

