-- ==== Sys2Proof/Machine/Operands.lean ====
section
/-! DEFINITION. Operand forms: the byte lanes of a packed Word (00_scope.md R9, 20_memory.md R54), the register map of the
window (R52), the KEYCFG fields (10_state.md R21, 30_encoding.md R73), the key and block bytes (R22, R55), the
round-key words (R25, R126) and the window's place on the host bus (R50). -/

namespace Sys2Proof.Machine

/-- Lane `k` of a packed Word: lane 0 is bits 31:24, lane 3 is bits 7:0 (R9). -/
def lane (k : Fin 4) (v : Word) : Byte := v.extractLsb' (8 * (3 - k.val)) 8

/-- `pack(a0,a1,a2,a3) = {a0, a1, a2, a3}` (R9). -/
def pack (a0 a1 a2 a3 : Byte) : Word := a0 ++ a1 ++ a2 ++ a3

/-- The registers of the window (R52). -/
inductive Reg where
  | ctrl
  | status
  | keycfg
  | key (j : Fin 8)
  | din (j : Fin 4)
  | dout (j : Fin 4)
  | rk (i : Fin 60)
  | reserved
deriving DecidableEq, Repr

/-- The register at an aligned offset: the map of R52. -/
def regAt (addr : Offset) : Reg :=
  let a := addr.toNat
  if a = 0x000 then .ctrl
  else if a = 0x004 then .status
  else if a = 0x008 then .keycfg
  else if h : 0x010 ≤ a ∧ a < 0x030 then .key ⟨(a - 0x010) / 4, by omega⟩
  else if h : 0x030 ≤ a ∧ a < 0x040 then .din ⟨(a - 0x030) / 4, by omega⟩
  else if h : 0x040 ≤ a ∧ a < 0x050 then .dout ⟨(a - 0x040) / 4, by omega⟩
  else if h : 0x100 ≤ a ∧ a < 0x1F0 then .rk ⟨(a - 0x100) / 4, by omega⟩
  else .reserved

/-- CTRL, KEYCFG, KEYj and DINj take host writes; every other offset ignores them (R52, R171). -/
def Reg.writable : Reg → Bool
  | .ctrl => true
  | .status => false
  | .keycfg => true
  | .key _ => true
  | .din _ => true
  | .dout _ => false
  | .rk _ => false
  | .reserved => false

/-- The NK field of a value written to KEYCFG (R73). -/
def keycfgNk (v : Word) : BitVec 4 := v.extractLsb' 0 4

/-- The KEYLEN field of a value written to KEYCFG (R73). -/
def keycfgKeylen (v : Word) : BitVec 6 := v.extractLsb' 8 6

/-- What KEYCFG reads: `zext_32({KEYLEN[5:0], 0000, NK[3:0]})` (R170). -/
def keycfgWord (s : State) : Word := (s.KEYCFG_KEYLEN ++ 0#4 ++ s.KEYCFG_NK).setWidth 32

/-- The input block: `in[4j+k] = lane k of DIN[j]` (R55, R178). -/
def inputBytes (din : Vector Word 4) : Vector Byte 16 :=
  Vector.ofFn fun i => lane ⟨i.val % 4, by omega⟩ din[i.val / 4]

/-- The four output words: `DOUTj = pack(out[4j], out[4j+1], out[4j+2], out[4j+3])` (R24, R55). -/
def packBlock (out : Vector Byte 16) : Vector Word 4 :=
  Vector.ofFn fun j => pack out[4 * j.val] out[4 * j.val + 1] out[4 * j.val + 2] out[4 * j.val + 3]

/-- Key byte `n`: lane `n mod 4` of KEY(n div 4) (R22). -/
def keyByte (key : Vector Word 8) (n : Fin 32) : Byte := lane ⟨n.val % 4, by omega⟩ key[n.val / 4]

/-- Word `k` of the round-key store, none where it is `undefined` or beyond the store (R25). -/
def rkWord (s : State) (k : Nat) : Option Word := s.RK[k]?.join

/-- Round key `r` is the four words RK[4r..4r+3] (R126). -/
def roundKey (s : State) (r : Nat) : Option (Vector Word 4) :=
  match rkWord s (4 * r), rkWord s (4 * r + 1), rkWord s (4 * r + 2), rkWord s (4 * r + 3) with
  | some a, some b, some c, some d => some #v[a, b, c, d]
  | _, _, _, _ => none

/-- The host address of an offset: AES_BASE + addr (R50). -/
def hostAddress (addr : Offset) : Nat := Config.AES_BASE + addr.toNat

/-- The offset a host address reaches, none where it is outside the window (R50). -/
def windowOffset (a : Nat) : Option Offset :=
  if Config.AES_BASE ≤ a ∧ a < Config.AES_BASE + 0x1000 then some (BitVec.ofNat 12 (a - Config.AES_BASE)) else none

end Sys2Proof.Machine
end

