-- ==== Sys2Proof/Machine/Flags.lean ====
section
/-! DEFINITION. STATUS and its fields (10_state.md R26–R31): the error codes (60_exceptions.md R200), the PHASE encoding,
BUSY, and the word a host read of STATUS returns. The core has no arithmetic flag (R35). -/

namespace Sys2Proof.Machine

/-- The errors the core records (R200). -/
inductive ErrCode where
  | none
  | invalidKeyClass
  | invalidKeyLength
  | reservedCommand
  | noSchedule
  | busy
deriving DecidableEq, Repr

/-- The 3-bit code of an error (R30, R200); 6 and 7 are never produced. -/
def ErrCode.code : ErrCode → BitVec 3
  | .none => 0#3
  | .invalidKeyClass => 1#3
  | .invalidKeyLength => 2#3
  | .reservedCommand => 3#3
  | .noSchedule => 4#3
  | .busy => 5#3

/-- `enc(phase)`: IDLE=0, EXPAND=1, ENCRYPT=2 (R26). -/
def phaseCode : Phase → BitVec 2
  | .idle => 0#2
  | .expand => 1#2
  | .encrypt => 2#2

/-- `phase ≠ IDLE`, a derived bit without storage (R27). -/
def busy (s : State) : Bool := s.phase != .idle

/-- The value a host read of STATUS returns (R26). -/
def statusWord (s : State) : Word :=
  (s.SNK ++ 0#4 ++ s.SNR ++ 0#5 ++ s.ERR ++ 0#2 ++ phaseCode s.phase ++ 0#1 ++
    BitVec.ofBool s.KEY_VALID ++ BitVec.ofBool s.DONE ++ BitVec.ofBool (busy s)).setWidth 32

end Sys2Proof.Machine
end

