-- ==== Sys2Proof/Machine/Ops.lean ====
section
/-! DEFINITION. The operations every meaning is written over: recording an error (60_exceptions.md R203, the core's only
form of exception; there is no return from it, R204), the busy drop (43_commands.md R171), reading a register of the
window (R170), handing a read value to the host, writing KEYCFG, KEYj and DINj (R172–R174), the shape of an engine
micro-step (R76), and taking the next turn (00_scope.md R13, R59). The core has no memory but these registers (R50). -/

namespace Sys2Proof.Machine

/-- What a meaning answers. -/
abbrev Result := Host.Outcome State Fault Refusal

/-- `raise E(code)`: ERR <- code and nothing else; nothing is saved and control goes nowhere (R203). -/
def raise (e : ErrCode) (s : State) : State := { s with ERR := e.code }

/-- A write to a writable register: dropped with ERR = BUSY while phase ≠ IDLE, performed otherwise (R171). -/
def whenIdle (f : State → State) (s : State) : State := if busy s then raise .busy s else f s

/-- What a read of a register returns, none for `any` (R170). -/
def readReg (r : Reg) (s : State) : Option Word :=
  match r with
  | .ctrl => some 0#32
  | .status => some (statusWord s)
  | .keycfg => some (keycfgWord s)
  | .key j => some s.KEY[j]
  | .din j => some s.DIN[j]
  | .dout j => if s.phase = .encrypt then none else some s.DOUT[j]
  | .rk i => if s.phase = .expand then none else s.RK[i]
  | .reserved => some 0#32

/-- What a host read at an offset returns, none for `any` (R170). -/
def readAt (addr : Offset) (s : State) : Option Word := readReg (regAt addr) s

/-- Hands the host the value of its read. No register changes (R53). -/
def returnRead (v : Word) (s : State) : State := { s with reads := v :: s.reads }

/-- Hands the host a fresh free value (R11, R170). -/
def returnAny (s : State) : State :=
  { s with reads := Config.freeWord s.draws :: s.reads, draws := s.draws + 1 }

/-- The KEYCFG write (R172). -/
def writeKeycfg (v : Word) (s : State) : State :=
  { s with KEYCFG_NK := keycfgNk v, KEYCFG_KEYLEN := keycfgKeylen v }

/-- The KEYj write (R173). -/
def writeKey (j : Fin 8) (v : Word) (s : State) : State := { s with KEY := s.KEY.set j v }

/-- The DINj write (R174). -/
def writeDin (j : Fin 4) (v : Word) (s : State) : State := { s with DIN := s.DIN.set j v }

/-- A micro-step: refused where its row of R76 does not select it, stuck where its operands are outside R37. -/
def microStep (selected : Bool) (result : Option State) : Result :=
  if selected then
    match result with
    | some t => .next t
    | none => .fault .engineOperands
  else .refused .microStepNotSelected

/-- What a turn presents to the decoder: the host's word as it stands, the sequencer state for the engine (R76). -/
def formOf (t : Turn) (s : State) : Form :=
  match t with
  | .ctrl v => .ctrl v
  | .bus size w => .bus size w
  | .engine => .engine s.phase s.RND s.SNR
  | .rst => .signal

/-- The next form to decode, with the state in which its turn is taken. With no turn to come the engine goes on while it
is busy (R180, weak fairness) and nothing happens while it is idle (R213). -/
def nextForm (s : State) : Option (Form × State) :=
  match s.turns with
  | t :: rest => some (formOf t s, { s with turns := rest })
  | [] => if busy s then some (formOf .engine s, s) else none

/-- What happens where a form selects no operation. An engine's turn while idle passes without effect (R180,
notes/assumptions/3.md). -/
def rejected (e : DecodeError) (s : State) : Result :=
  match e with
  | .wrongSize => .refused .transactionSize
  | .misaligned => .refused .transactionMisaligned
  | .engineIdle => .next s
  | .noMicroStep => .fault .sequencerUnreachable

/-- The turn that presents a form of the opcode table, none for the sequencer's own form. -/
def turnOf : Form → Option Turn
  | .ctrl v => some (.ctrl v)
  | .bus size w => some (.bus size w)
  | .engine _ _ _ => none
  | .signal => some .rst

end Sys2Proof.Machine
end

