-- ==== Sys2Proof/Machine/Gf.lean ====
section
/-! DEFINITION. The two leaf units of the datapath: doubling in GF(2^8) (40_gf_sbox.md R100) and the S-box (R103, R104),
with SubWord over it (R106). -/

namespace Sys2Proof.Machine

/-- Multiplication by 2 modulo 0x11B (R100). -/
def xtime (x : Byte) : Byte := if x.getLsbD 7 then (x <<< 1) ^^^ 0x1B#8 else x <<< 1

/-- The table of R104, one row a number: the entry of column 0 is its most significant byte. -/
def sboxRows : List (BitVec 128) :=
  [0x637c777bf26b6fc53001672bfed7ab76#128, 0xca82c97dfa5947f0add4a2af9ca472c0#128,
   0xb7fd9326363ff7cc34a5e5f171d83115#128, 0x04c723c31896059a071280e2eb27b275#128] ++
  [0x09832c1a1b6e5aa0523bd6b329e32f84#128, 0x53d100ed20fcb15b6acbbe394a4c58cf#128,
   0xd0efaafb434d338545f9027f503c9fa8#128, 0x51a3408f929d38f5bcb6da2110fff3d2#128] ++
  [0xcd0c13ec5f974417c4a77e3d645d1973#128, 0x60814fdc222a908846eeb814de5e0bdb#128,
   0xe0323a0a4906245cc2d3ac629195e479#128, 0xe7c8376d8dd54ea96c56f4ea657aae08#128] ++
  [0xba78252e1ca6b4c6e8dd741f4bbd8b8a#128, 0x703eb5664803f60e613557b986c11d9e#128,
   0xe1f8981169d98e949b1e87e9ce5528df#128, 0x8ca1890dbfe6426841992d0fb054bb16#128]

/-- `SBOX(x) = T[x[7:4]][x[3:0]]` (R103). -/
def sbox (x : Byte) : Byte :=
  let row := sboxRows.getD (x.extractLsb' 4 4).toNat 0#128
  row.extractLsb' (8 * (15 - (x.extractLsb' 0 4).toNat)) 8

/-- The S-box applied to each lane (R106). -/
def subWord (v : Word) : Word := pack (sbox (lane 0 v)) (sbox (lane 1 v)) (sbox (lane 2 v)) (sbox (lane 3 v))

end Sys2Proof.Machine
end

