-- ==== Sys2Proof/Machine/KeySchedule.lean ====
section
/-! DEFINITION. The key schedule: RotWord, Rcon, NrOf, one expansion step and the whole expansion (41_key_schedule.md
R120–R126). Rcon counts doublings as 90_conflicts.md C1 resolves, lanes as C2. -/

namespace Sys2Proof.Machine

/-- `RotWord(v) = {v[23:0], v[31:24]}` (R120). -/
def rotWord (v : Word) : Word := v.extractLsb' 0 24 ++ v.extractLsb' 24 8

/-- 0x01 doubled `n` times. -/
def doubled : Nat → Byte
  | 0 => 0x01#8
  | n + 1 => xtime (doubled n)

/-- `Rcon(k) = {r_k, 0x000000}` with r_k = 0x01 doubled k−1 times (R121). Used at k = 1..10 only. -/
def rcon (k : Nat) : Word := doubled (k - 1) ++ 0#24

/-- `NrOf`, undefined outside {4, 6, 8} (R123). -/
def nrOf : Nat → Option Nat
  | 4 => some 10
  | 6 => some 12
  | 8 => some 14
  | _ => none

/-- `KeyStep` over the two words it reads, `prev` = W[i−1] and `back` = W[i−Nk] (R124). -/
def keyStepOn (prev back : Word) (i nk : Nat) : Word :=
  back ^^^
    (if i % nk = 0 then subWord (rotWord prev) ^^^ rcon (i / nk)
     else if 6 < nk ∧ i % nk = 4 then subWord prev
     else prev)

/-- `KeyStep(W, i, Nk)` (R124). -/
def keyStep (W : Nat → Word) (i nk : Nat) : Word := keyStepOn (W (i - 1)) (W (i - nk)) i nk

/-- The first `n` words of the schedule of a key whose bytes are `key`: the two loops of R125. -/
def schedulePrefix (key : Nat → Byte) (nk : Nat) : Nat → List Word
  | 0 => []
  | n + 1 =>
    let W := schedulePrefix key nk n
    W ++ [if n < nk then pack (key (4 * n)) (key (4 * n + 1)) (key (4 * n + 2)) (key (4 * n + 3))
          else keyStep (fun k => W.getD k 0#32) n nk]

/-- `KeyExpansion(key, Nk)`, with 4·(NrOf(Nk)+1) words; none for an Nk without a round count (R125). -/
def keyExpansion (key : Nat → Byte) (nk : Nat) : Option (List Word) :=
  (nrOf nk).map fun nr => schedulePrefix key nk (4 * (nr + 1))

/-- The key bytes held in KEY0–KEY7, by number (R22); the core has 32 of them. -/
def keyBytes (key : Vector Word 8) (n : Nat) : Byte := keyByte key (Fin.ofNat 32 n)

end Sys2Proof.Machine
end

