-- ==== Sys2Proof/Machine/Rounds.lean ====
section
/-! DEFINITION. The forward-cipher round engine: the State and its mapping, the four sub-operations, the rounds and the
whole transform (42_cipher_rounds.md R140–R150). A State is the 16 bytes `ST[r + 4·c]` (00_scope.md R10). -/

namespace Sys2Proof.Machine

/-- `s[r][c]` (R10). -/
def cell (st : Vector Byte 16) (r c : Fin 4) : Byte := st[r.val + 4 * c.val]

/-- The State whose byte in row r, column c is `f r c` (R10). -/
def ofCells (f : Fin 4 → Fin 4 → Byte) : Vector Byte 16 :=
  Vector.ofFn fun i => f ⟨i.val % 4, by omega⟩ ⟨i.val / 4, by omega⟩

/-- The column-major fill: byte i goes to row i mod 4, column i div 4 (R140). -/
def loadState (inp : Vector Byte 16) : Vector Byte 16 := ofCells fun r c => inp[4 * c.val + r.val]

/-- `out[4j + i] = s[i][j]` (R141). -/
def storeState (st : Vector Byte 16) : Vector Byte 16 :=
  Vector.ofFn fun k => cell st ⟨k.val % 4, by omega⟩ ⟨k.val / 4, by omega⟩

/-- Column `j` packed, row 0 in the most significant byte: `DOUTj` (R141). -/
def columnWord (st : Vector Byte 16) (j : Fin 4) : Word := pack (cell st 0 j) (cell st 1 j) (cell st 2 j) (cell st 3 j)

/-- The four words of a State, one a column (R141, R184). -/
def columnWords (st : Vector Byte 16) : Vector Word 4 := Vector.ofFn fun j => columnWord st j

/-- R142. -/
def subBytes (st : Vector Byte 16) : Vector Byte 16 := ofCells fun r c => sbox (cell st r c)

/-- `s'[r][c] = s[r][(c + r) mod 4]`: row r rotates left by r, row 2 by 2 (R143, 90_conflicts.md C3). -/
def shiftRows (st : Vector Byte 16) : Vector Byte 16 := ofCells fun r c => cell st r (c + r)

/-- Row `r` of MixColumn applied to the old column (s0, s1, s2, s3) (R144). -/
def mixColumn (s0 s1 s2 s3 : Byte) (r : Fin 4) : Byte :=
  match r with
  | 0 => xtime s0 ^^^ s1 ^^^ xtime s1 ^^^ s2 ^^^ s3
  | 1 => s0 ^^^ xtime s1 ^^^ s2 ^^^ xtime s2 ^^^ s3
  | 2 => s0 ^^^ s1 ^^^ xtime s2 ^^^ s3 ^^^ xtime s3
  | 3 => s0 ^^^ xtime s0 ^^^ s1 ^^^ s2 ^^^ xtime s3

/-- MixColumn on each column (R145). -/
def mixColumns (st : Vector Byte 16) : Vector Byte 16 :=
  ofCells fun r c => mixColumn (cell st 0 c) (cell st 1 c) (cell st 2 c) (cell st 3 c) r

/-- `s'[j][c] = s[j][c] ⊕ lane_j(W[4r + c])` with the round key's four words (R146, R126). -/
def addRoundKey (st : Vector Byte 16) (k : Vector Word 4) : Vector Byte 16 :=
  ofCells fun r c => cell st r c ^^^ lane r k[c]

/-- One main round: SubBytes, ShiftRows, MixColumns, AddRoundKey (R147). -/
def mainRound (st : Vector Byte 16) (k : Vector Word 4) : Vector Byte 16 :=
  addRoundKey (mixColumns (shiftRows (subBytes st))) k

/-- The final round has no MixColumns (R148). -/
def finalRound (st : Vector Byte 16) (k : Vector Word 4) : Vector Byte 16 := addRoundKey (shiftRows (subBytes st)) k

/-- Round key `r` of a schedule W (R126). -/
def roundKeyOf (W : Nat → Word) (r : Nat) : Vector Word 4 := #v[W (4 * r), W (4 * r + 1), W (4 * r + 2), W (4 * r + 3)]

/-- The State after the initial AddRoundKey and main rounds 1..n (R149). -/
def afterRounds (inp : Vector Byte 16) (W : Nat → Word) : Nat → Vector Byte 16
  | 0 => addRoundKey (loadState inp) (roundKeyOf W 0)
  | n + 1 => mainRound (afterRounds inp W n) (roundKeyOf W (n + 1))

/-- `Cipher(in, W, Nr)`, the whole transform (R149). -/
def cipher (inp : Vector Byte 16) (W : Nat → Word) (nr : Nat) : Vector Byte 16 :=
  storeState (finalRound (afterRounds inp W (nr - 1)) (roundKeyOf W nr))

end Sys2Proof.Machine
end

