-- ==== Sys2Proof/Machine/Commands.lean ====
section
/-! DEFINITION. The commands, written to CTRL: NOP, EXPAND_KEY, ENCRYPT_BLOCK and the reserved command (43_commands.md
R175–R179). Each is dropped with ERR = BUSY while phase ≠ IDLE (R171). -/

namespace Sys2Proof.Machine

/-- NOP while idle: no effect (R176). -/
def nopIdle (s : State) : State := s

/-- RK after the first loop of the expansion: RK[j] <- defined KEY[j] for j < NK (R177, R125). -/
def copyKey (key : Vector Word 8) (nk : Nat) (rk : Vector (Option Word) 60) : Vector (Option Word) 60 :=
  Vector.ofFn fun i => if h : i.val < 8 then if i.val < nk then some key[i.val] else rk[i] else rk[i]

/-- An accepted EXPAND_KEY, after DONE and KEY_VALID are cleared (R177). -/
def expandAccepted (nr : Nat) (s : State) : State :=
  { s with
    ERR := ErrCode.none.code
    SNK := s.KEYCFG_NK
    SNR := BitVec.ofNat 4 nr
    RK := copyKey s.KEY s.KEYCFG_NK.toNat s.RK
    KI := s.KEYCFG_NK.setWidth 6
    phase := .expand }

/-- EXPAND_KEY while idle (R177): the class is checked before the length (R202). -/
def expandKeyIdle (s : State) : State :=
  let s := { s with DONE := false, KEY_VALID := false }
  match nrOf s.KEYCFG_NK.toNat with
  | none => raise .invalidKeyClass s
  | some nr =>
    if s.KEYCFG_KEYLEN.toNat = 4 * s.KEYCFG_NK.toNat then expandAccepted nr s
    else raise .invalidKeyLength s

/-- An accepted ENCRYPT_BLOCK, after DONE is cleared (R178). -/
def encryptAccepted (s : State) : State :=
  { s with
    ERR := ErrCode.none.code
    ST := loadState (inputBytes s.DIN)
    RND := 0#4
    phase := .encrypt }

/-- ENCRYPT_BLOCK while idle (R178). -/
def encryptBlockIdle (s : State) : State :=
  let s := { s with DONE := false }
  if s.KEY_VALID then encryptAccepted s else raise .noSchedule s

/-- The reserved command while idle (R179). -/
def reservedIdle (s : State) : State := raise .reservedCommand { s with DONE := false }

/-- A command while idle, by its CMD field (R175). -/
def commandIdle (c : Cmd) (s : State) : State :=
  match c with
  | .nop => nopIdle s
  | .expandKey => expandKeyIdle s
  | .encryptBlock => encryptBlockIdle s
  | .reserved => reservedIdle s

/-- The CTRL write while idle (R175). -/
def ctrlIdle (v : Word) (s : State) : State := commandIdle (cmdOf v) s

/-- NOP (R176, R171). -/
def execNop (s : State) : Result := .next (whenIdle nopIdle s)

/-- EXPAND_KEY (R177, R171). -/
def execExpandKey (s : State) : Result := .next (whenIdle expandKeyIdle s)

/-- ENCRYPT_BLOCK (R178, R171). -/
def execEncryptBlock (s : State) : Result := .next (whenIdle encryptBlockIdle s)

/-- The reserved command (R179, R171). -/
def execCmdReserved (s : State) : Result := .next (whenIdle reservedIdle s)

end Sys2Proof.Machine
end

