-- ==== Sys2Proof/Machine/Bus.lean ====
section
/-! DEFINITION. The host transactions RD and WR (43_commands.md R170, R171). A misaligned one is refused (20_memory.md
R57); one of another size never reaches them (Decode.lean). -/

namespace Sys2Proof.Machine

/-- RD: the value goes to the host, a fresh free value where the rule says `any` (R170). -/
def execRd (addr : Offset) (s : State) : Result :=
  if aligned addr then
    match readAt addr s with
    | some v => .next (returnRead v s)
    | none => .next (returnAny s)
  else .refused .transactionMisaligned

/-- What a write does to a register (R171): nothing where it is not writable, BUSY while a command runs, else the
register's own rule (R172–R175). -/
def writeReg (r : Reg) (v : Word) (s : State) : State :=
  match r with
  | .ctrl => whenIdle (ctrlIdle v) s
  | .keycfg => whenIdle (writeKeycfg v) s
  | .key j => whenIdle (writeKey j v) s
  | .din j => whenIdle (writeDin j v) s
  | .status => s
  | .dout _ => s
  | .rk _ => s
  | .reserved => s

/-- WR (R171). -/
def execWr (addr : Offset) (v : Word) (s : State) : Result :=
  if aligned addr then .next (writeReg (regAt addr) v s) else .refused .transactionMisaligned

end Sys2Proof.Machine
end

