-- ==== Sys2Proof/Machine/Engine.lean ====
section
/-! DEFINITION. The engine micro-steps KEXP_STEP, ENC_INITIAL, ENC_ROUND and ENC_FINAL (43_commands.md R181–R184). Each is
one atomic step (20_memory.md R58). -/

namespace Sys2Proof.Machine

/-- RK[KI−1] and RK[KI−SNK], where R37 invariants 2 and 3 hold of the sequencer (R124, R181). -/
def kexpOperands (s : State) : Option (Word × Word) :=
  if nrOf s.SNK.toNat = some s.SNR.toNat ∧ s.SNK.toNat ≤ s.KI.toNat ∧ s.KI.toNat < 4 * (s.SNR.toNat + 1) then
    match rkWord s (s.KI.toNat - 1), rkWord s (s.KI.toNat - s.SNK.toNat) with
    | some prev, some back => some (prev, back)
    | _, _ => none
  else none

/-- The last expansion step's flags (R181). -/
def expandDone (s : State) : State := { s with phase := .idle, KEY_VALID := true, DONE := true }

/-- Stores schedule word KI and moves on; the word that completes the schedule ends the command (R181). -/
def storeScheduleWord (w : Word) (s : State) : State :=
  let t := { s with RK := s.RK.setIfInBounds s.KI.toNat (some w), KI := s.KI + 1#6 }
  if s.KI.toNat + 1 = 4 * (s.SNR.toNat + 1) then expandDone t else t

/-- KEXP_STEP (R181). -/
def execKexpStep (s : State) : Result :=
  microStep (s.phase == .expand)
    ((kexpOperands s).map fun w => storeScheduleWord (keyStepOn w.1 w.2 s.KI.toNat s.SNK.toNat) s)

/-- ENC_INITIAL (R182). -/
def execEncInitial (s : State) : Result :=
  microStep (s.phase == .encrypt && s.RND == 0#4)
    ((roundKey s 0).map fun k => { s with ST := addRoundKey s.ST k, RND := 1#4 })

/-- ENC_ROUND (R183). -/
def execEncRound (s : State) : Result :=
  microStep (s.phase == .encrypt && decide (1 ≤ s.RND.toNat ∧ s.RND.toNat < s.SNR.toNat))
    ((roundKey s s.RND.toNat).map fun k => { s with ST := mainRound s.ST k, RND := s.RND + 1#4 })

/-- The last encryption step: DOUT, the flags and the sequencer in one step (R184). -/
def encryptDone (st : Vector Byte 16) (s : State) : State :=
  { s with ST := st, DOUT := columnWords st, RND := s.SNR + 1#4, phase := .idle, DONE := true }

/-- ENC_FINAL (R184). -/
def execEncFinal (s : State) : Result :=
  microStep (s.phase == .encrypt && s.RND == s.SNR)
    ((roundKey s s.SNR.toNat).map fun k => encryptDone (finalRound s.ST k) s)

end Sys2Proof.Machine
end

