-- ==== Sys2Proof/Machine/Signal.lean ====
section
/-! DEFINITION. The reset input (70_reset_and_hazards.md R230, R231): one atomic step, at any time. -/

namespace Sys2Proof.Machine

/-- Every register at its reset value, ST a fresh free value (R230). The turns still to come and what the host has read
are not the core's and stay (notes/assumptions/7.md). -/
def resetCore (s : State) : State :=
  { State.reset with ST := State.freeST s.draws, turns := s.turns, reads := s.reads, draws := s.draws + 1 }

/-- RESET (R230). -/
def execReset (s : State) : Result := .next (resetCore s)

end Sys2Proof.Machine
end

