-- ==== Sys2Proof/Machine/Dispatch.lean ====
section
/-! DEFINITION. One arm per operation of the opcode table, each one direct call of its meaning. -/

namespace Sys2Proof.Machine

def exec (i : Instr) (s : State) : Host.Outcome State Fault Refusal :=
  match i with
  | .nop => Sys2Proof.Machine.execNop s
  | .expandKey => Sys2Proof.Machine.execExpandKey s
  | .encryptBlock => Sys2Proof.Machine.execEncryptBlock s
  | .cmdReserved => Sys2Proof.Machine.execCmdReserved s
  | .wr addr data => Sys2Proof.Machine.execWr addr data s
  | .rd addr => Sys2Proof.Machine.execRd addr s
  | .kexpStep => Sys2Proof.Machine.execKexpStep s
  | .encInitial => Sys2Proof.Machine.execEncInitial s
  | .encRound => Sys2Proof.Machine.execEncRound s
  | .encFinal => Sys2Proof.Machine.execEncFinal s
  | .reset => Sys2Proof.Machine.execReset s

end Sys2Proof.Machine
end

