-- ==== Sys2Proof/Machine/Step.lean ====
section
/-! DEFINITION. One step of the machine: take the next turn, decode what it presents, run it. -/

namespace Sys2Proof.Machine

/-- One step (R13, R59): the next turn's operation; an idle core with no turn to come keeps all its state (R213). -/
def step (s : State) : Host.Outcome State Fault Refusal :=
  match nextForm s with
  | none => .next s
  | some (f, t) =>
    match decode f with
    | .ok i => exec i t
    | .error e => rejected e t

/-- `s` with the operation of a word of the opcode table as its next turn. A word of no format leaves `s` as it is
(notes/assumptions/12.md, 13.md). -/
def State.withFetchWord (s : State) (nbits w : Nat) : State :=
  match (formOfTableWord nbits w).bind turnOf with
  | some t => { s with turns := t :: s.turns }
  | none => s

end Sys2Proof.Machine
end

