-- ==== Sys2Proof/Safety.lean ====
section
/-! DEFINITION. The terms claims are stated in: runs of steps, the invariants of 10_state.md R37 with the key and block
they speak of, what may interleave with a command (43_commands.md R180), the end of a run and its observation
(70_reset_and_hazards.md R245). -/

namespace Sys2Proof.Machine

/-- `n` steps of the machine. -/
def run (n : Nat) (s : State) : Result := Host.Core.run core n s

/-- RK[k] where it is defined; claims use it below the schedule length only (R25, R146). -/
def rkValue (s : State) (k : Nat) : Word := (rkWord s k).getD 0#32

/-- RK[0..n−1] are defined and equal KeyExpansion(key, SNK)[0..n−1] (R37). -/
def HoldsSchedule (s : State) (key : Nat → Byte) (n : Nat) : Prop :=
  ∀ i, i < n → rkWord s i = (schedulePrefix key s.SNK.toNat n)[i]?

/-- The State when round `r` is the next to apply (R34, R149). -/
def stateBefore (block : Vector Byte 16) (W : Nat → Word) : Nat → Vector Byte 16
  | 0 => loadState block
  | r + 1 => afterRounds block W r

/-- What R37 says of a run's past: the key latched at the last accepted EXPAND_KEY, the block at the last accepted
ENCRYPT_BLOCK, and whether the last CTRL write with CMD ≠ 0 made while idle was an accepted ENCRYPT_BLOCK. -/
structure Latched where
  key : Nat → Byte
  block : Vector Byte 16
  encrypted : Bool

/-- How a step from `s` to `t` changes the past. A command accepted while idle leaves IDLE; one rejected while idle, like
a reset, leaves DONE = 0 there (R28). -/
def Latched.after (h : Latched) (s t : State) : Latched :=
  if s.phase = .idle ∧ t.phase = .expand then { h with key := keyBytes s.KEY, encrypted := false }
  else if s.phase = .idle ∧ t.phase = .encrypt then { h with block := inputBytes s.DIN, encrypted := true }
  else if t.phase = .idle ∧ t.DONE = false then { h with encrypted := false }
  else h

/-- The six invariants of R37, and the codes ERR may hold (R30). That an expansion in progress was begun by an accepted
EXPAND_KEY, so that the past names no ENCRYPT_BLOCK, completes the third (it rules out states no run reaches). -/
structure State.Inv (h : Latched) (s : State) : Prop where
  encrypt_keyValid : s.phase = .encrypt → s.KEY_VALID = true
  schedule_class : s.KEY_VALID = true ∨ s.phase = .expand → nrOf s.SNK.toNat = some s.SNR.toNat
  expanding : s.phase = .expand → s.KEY_VALID = false ∧ s.SNK.toNat ≤ s.KI.toNat ∧
    s.KI.toNat < 4 * (s.SNR.toNat + 1) ∧ HoldsSchedule s h.key s.KI.toNat ∧ h.encrypted = false
  schedule : s.KEY_VALID = true → HoldsSchedule s h.key (4 * (s.SNR.toNat + 1))
  encrypting : s.phase = .encrypt → s.RND.toNat ≤ s.SNR.toNat ∧ h.encrypted = true ∧
    s.ST = stateBefore h.block (rkValue s) s.RND.toNat
  encrypted : h.encrypted = true → s.phase = .idle → s.DONE = true ∧
    s.DOUT = packBlock (cipher h.block (rkValue s) s.SNR.toNat)
  errCode : s.ERR.toNat ≤ 5

/-- The engine steps a running command still takes (R181, R184, R241). -/
def remainingSteps (s : State) : Nat :=
  match s.phase with
  | .idle => 0
  | .expand => 4 * (s.SNR.toNat + 1) - s.KI.toNat
  | .encrypt => s.SNR.toNat + 1 - s.RND.toNat

/-- A turn that may interleave with a command: anything but a reset and a transaction outside the interface (R180, R57). -/
def Turn.withinCommand : Turn → Bool
  | .ctrl _ => true
  | .bus size w => size == 32 && aligned (busAddr w)
  | .engine => true
  | .rst => false

/-- A turn that is a host write to a writable register: dropped with ERR = BUSY while a command runs (R171). -/
def Turn.writesRegister : Turn → Bool
  | .ctrl _ => true
  | .bus _ w => busWrite w && (regAt (busAddr w)).writable
  | .engine => false
  | .rst => false

/-- The host's operations (R13): commands and transactions. -/
def hostOperation : Instr → Bool
  | .nop => true
  | .expandKey => true
  | .encryptBlock => true
  | .cmdReserved => true
  | .wr _ _ => true
  | .rd _ => true
  | .kexpStep => false
  | .encInitial => false
  | .encRound => false
  | .encFinal => false
  | .reset => false

/-- The engine's micro-steps (R76). -/
def engineOperation : Instr → Bool
  | .nop => false
  | .expandKey => false
  | .encryptBlock => false
  | .cmdReserved => false
  | .wr _ _ => false
  | .rd _ => false
  | .kexpStep => true
  | .encInitial => true
  | .encRound => true
  | .encFinal => true
  | .reset => false

/-- The command an operation writes to CTRL (R70, R175). -/
def commandOf : Instr → Option Cmd
  | .nop => some .nop
  | .expandKey => some .expandKey
  | .encryptBlock => some .encryptBlock
  | .cmdReserved => some .reserved
  | .wr addr v => if addr = 0#12 then some (cmdOf v) else none
  | .rd _ => none
  | .kexpStep => none
  | .encInitial => none
  | .encRound => none
  | .encFinal => none
  | .reset => none

/-- The carry-less product of two bytes: the polynomial product of R100, before reduction. -/
def polyMul (a b : Byte) : BitVec 16 :=
  (List.range 8).foldl (fun p i => if b.getLsbD i then p ^^^ (a.setWidth 16 <<< i) else p) 0#16

/-- Multiplication in GF(2^8) modulo 0x11B, from the definition of the field and not from xtime (R100, R102, R105). -/
def gfMul (a b : Byte) : Byte :=
  ((List.range 7).foldl
    (fun p i => if p.getLsbD (14 - i) then p ^^^ (0x11B#16 <<< (6 - i)) else p) (polyMul a b)).setWidth 8

/-- The affine map A of the S-box generator (R105). -/
def affine (b : Byte) : Byte :=
  b ^^^ b.rotateLeft 1 ^^^ b.rotateLeft 2 ^^^ b.rotateLeft 3 ^^^ b.rotateLeft 4 ^^^ 0x63#8

/-- A turn that is a host transaction, inside the interface or not (R13). -/
def Turn.byHost : Turn → Bool
  | .ctrl _ => true
  | .bus _ _ => true
  | .engine => false
  | .rst => false

/-- The run has ended: the host has performed its last transaction, and phase = IDLE (R15, R245). Turns of the engine and
of `rst` still listed do not keep it open: the rule names neither (notes/assumptions/21.md). -/
def State.finished (s : State) : Bool := s.turns.all (fun t => !t.byHost) && !busy s

/-- What is observed at the end of a run (R245). -/
structure Observation where
  reads : List Word
  status : Word
  keycfg : Word
  key : Vector Word 8
  din : Vector Word 4
  dout : Vector Word 4
  rk : Vector (Option Word) 60
deriving DecidableEq, Repr

/-- The observation of a state (R245). -/
def observe (s : State) : Observation where
  reads := s.reads
  status := statusWord s
  keycfg := keycfgWord s
  key := s.KEY
  din := s.DIN
  dout := s.DOUT
  rk := s.RK

/-- The observation of the run from `s`, where it ends within `n` steps: that of the first state in which the run has ended
(R245, notes/assumptions/21.md). None where it has not ended by then, or the machine has stopped. -/
def observation : Nat → State → Option Observation
  | 0, s => if s.finished then some (observe s) else none
  | n + 1, s =>
    if s.finished then some (observe s)
    else
      match step s with
      | .next t => observation n t
      | .fault _ => none
      | .refused _ => none

end Sys2Proof.Machine
end

