-- ==== Sys2Proof/Certificates/Slice0/Obligations.lean ====
section
/-! DEFINITION. The statements about the model, from the numbered rules of spec/. Each one's docstring names the rule it
formalises; OBLIGATIONS.json holds the sentence. A conclusion `exec i s = .next { s with … }` is at once the operation's
completion, its result and its frame: every field it does not name is unchanged. -/

open Sys2Proof Sys2Proof.Machine

/-! ## Encoding -/

/-- R71, R76, R77, R80: no operand bit of an operation is lost between its encoding and the decoder. -/
def Obligations.DecodeInvertsEncode : Prop :=
  ∀ i : Instr, i.wf = true → decode (encode i) = .ok i

/-- R70, R75, R77, and the encodings of 95_test_vectors.md P1: ten words written out from the formats, and a misaligned
one. That a table word's width names its format is assumption 12 (DESIGN CHOICE); that RD STATUS is 0x000400000000, as
R77's bit table and P1 have it and R77's own example has not, is assumption 18 (DEDUCED). -/
def Obligations.SampleWordsDecode : Prop :=
  decodeTableWord 32 0x00000000 = some .nop ∧
  decodeTableWord 32 0xFFFFFFFC = some .nop ∧
  decodeTableWord 32 0x00000001 = some .expandKey ∧
  decodeTableWord 32 0xFFFFFFFD = some .expandKey ∧
  decodeTableWord 32 0x00000002 = some .encryptBlock ∧
  decodeTableWord 32 0x00000003 = some .cmdReserved ∧
  decodeTableWord 48 0x100000000001 = some (.wr 0x000#12 0x00000001#32) ∧
  decodeTableWord 48 0x10102b7e1516 = some (.wr 0x010#12 0x2b7e1516#32) ∧
  decodeTableWord 48 0x000400000000 = some (.rd 0x004#12) ∧
  decodeTableWord 48 0x01ac00000000 = some (.rd 0x1ac#12) ∧
  decodeTableWord 48 0x000200000000 = none

/-- R71: decoding a CTRL value is total and depends on v[1:0] alone. -/
def Obligations.CommandDecodeUsesCmdAlone : Prop :=
  ∀ v : Word,
    (v.toNat % 4 = 0 → decode (.ctrl v) = .ok .nop) ∧
    (v.toNat % 4 = 1 → decode (.ctrl v) = .ok .expandKey) ∧
    (v.toNat % 4 = 2 → decode (.ctrl v) = .ok .encryptBlock) ∧
    (v.toNat % 4 = 3 → decode (.ctrl v) = .ok .cmdReserved)

/-- R77, R80 and the BUS rows of the opcode table: a 45-bit word is WR, RD or outside the interface as match and mask
say, and its fields are bits 43:32 and 31:0. That a read ignores its data field is the model's (assumption 11). -/
def Obligations.BusWordsFollowOpcodeTable : Prop :=
  ∀ w : BitVec 45,
    (w &&& 0x100300000000#45 = 0x100000000000#45 →
      decode (.bus 32 w) = .ok (.wr (BitVec.ofNat 12 (w.toNat / 2 ^ 32)) (BitVec.ofNat 32 w.toNat))) ∧
    (w &&& 0x100300000000#45 = 0x000000000000#45 →
      decode (.bus 32 w) = .ok (.rd (BitVec.ofNat 12 (w.toNat / 2 ^ 32)))) ∧
    (w &&& 0x000300000000#45 ≠ 0#45 → decode (.bus 32 w) = .error .misaligned)

/-- R76: the micro-step each sequencer state selects, and that no other combination meets State.Inv (R37, assumption
20). -/
def Obligations.EngineDispatch : Prop :=
  (∀ rnd snr, decode (.engine .idle rnd snr) = .error .engineIdle) ∧
  (∀ rnd snr, decode (.engine .expand rnd snr) = .ok .kexpStep) ∧
  (∀ snr, decode (.engine .encrypt 0#4 snr) = .ok .encInitial) ∧
  (∀ rnd snr : BitVec 4, 1 ≤ rnd.toNat → rnd.toNat + 1 ≤ snr.toNat → decode (.engine .encrypt rnd snr) = .ok .encRound) ∧
  (∀ snr : BitVec 4, snr ≠ 0#4 → decode (.engine .encrypt snr snr) = .ok .encFinal) ∧
  (∀ (h : Latched) (s : State), s.Inv h → s.phase ≠ .idle →
    ∃ i, decode (.engine s.phase s.RND s.SNR) = .ok i ∧ engineOperation i = true)

/-! ## The step -/

/-- R13, R59, R180: a step runs the operation the next turn presents, in the state with that turn taken; with no turn to
come the engine goes on while busy, and an idle core keeps its state (R213; that it answers so is assumption 2). -/
def Obligations.StepRunsDecodedOperation : Prop :=
  ∀ s : State,
    (∀ v rest i, s.turns = .ctrl v :: rest → decode (.ctrl v) = .ok i → step s = exec i { s with turns := rest }) ∧
    (∀ size w rest i, s.turns = .bus size w :: rest → decode (.bus size w) = .ok i →
      step s = exec i { s with turns := rest }) ∧
    (∀ rest i, s.turns = .engine :: rest → decode (.engine s.phase s.RND s.SNR) = .ok i →
      step s = exec i { s with turns := rest }) ∧
    (∀ rest, s.turns = .rst :: rest → step s = exec .reset { s with turns := rest }) ∧
    (∀ i, s.turns = [] → decode (.engine s.phase s.RND s.SNR) = .ok i → step s = exec i s) ∧
    (s.turns = [] → s.phase = .idle → step s = .next s)

/-- R57: a transaction that is not 32 bits wide, or not aligned, has no step. -/
def Obligations.TransactionsOutsideInterfaceRefused : Prop :=
  (∀ (s : State) (size : Nat) (w : BitVec 45) (rest : List Turn), s.turns = .bus size w :: rest →
    size ≠ 32 ∨ w.toNat / 2 ^ 32 % 4 ≠ 0 → ∃ r, step s = .refused r) ∧
  (∀ (s : State) (addr : Offset), addr.toNat % 4 ≠ 0 → exec (.rd addr) s = .refused .transactionMisaligned) ∧
  (∀ (s : State) (addr : Offset) (v : Word), addr.toNat % 4 ≠ 0 →
    exec (.wr addr v) s = .refused .transactionMisaligned)

/-- R245, R15, R213: a run has ended exactly when the host has no transaction to come and phase = IDLE, so a state
with phase ≠ IDLE is never final; the observation is that of the first state in which it has ended. An ended run keeps
its state: engine turns still listed pass without effect (assumption 3). That turns of the engine and of rst do not
keep a run open, and that the observation is taken at the first such state, is assumption 21. -/
def Obligations.FinishedRunIsStable : Prop :=
  ∀ s : State,
    (s.finished = true ↔
      (∀ v, .ctrl v ∉ s.turns) ∧ (∀ size w, .bus size w ∉ s.turns) ∧ s.phase = .idle) ∧
    (s.finished = true → ∀ n, observation n s = some (observe s)) ∧
    (∀ n t, s.finished = false → step s = .next t → observation (n + 1) s = observation n t) ∧
    (s.finished = true → s.turns = [] → step s = .next s) ∧
    (∀ rest, s.finished = true → s.turns = .engine :: rest →
      step s = .next { s with turns := rest } ∧ ({ s with turns := rest } : State).finished = true)

/-- R50: offset addr is reached at host address AES_BASE + addr, and no address outside the 4 KiB window reaches one. -/
def Obligations.WindowPlacement : Prop :=
  (∀ addr : Offset, windowOffset (hostAddress addr) = some addr) ∧
  (∀ a : Nat, a < Config.AES_BASE ∨ Config.AES_BASE + 0x1000 ≤ a → windowOffset a = none)

/-! ## Host transactions -/

/-- R26: STATUS is assembled from its fields, is read-only, and resets to 0. -/
def Obligations.StatusLayout : Prop :=
  (∀ s : State, ∃ v : Word, exec (.rd 0x004#12) s = .next { s with reads := v :: s.reads } ∧
    v.getLsbD 0 = decide (s.phase ≠ .idle) ∧ v.getLsbD 1 = s.DONE ∧ v.getLsbD 2 = s.KEY_VALID ∧ v.getLsbD 3 = false ∧
    v.toNat / 2 ^ 4 % 4 = (match s.phase with | .idle => 0 | .expand => 1 | .encrypt => 2) ∧
    v.toNat / 2 ^ 6 % 4 = 0 ∧ v.toNat / 2 ^ 8 % 8 = s.ERR.toNat ∧ v.toNat / 2 ^ 11 % 32 = 0 ∧
    v.toNat / 2 ^ 16 % 16 = s.SNR.toNat ∧ v.toNat / 2 ^ 20 % 16 = 0 ∧
    v.toNat / 2 ^ 24 % 16 = s.SNK.toNat ∧ v.toNat / 2 ^ 28 = 0) ∧
  (∀ (s : State) (v : Word), exec (.wr 0x004#12 v) s = .next s) ∧
  readAt 0x004#12 State.reset = some 0#32

/-- R170: what every aligned read returns, in every state; where the rule says `any` the value is the next free value
(assumption 4) and nothing is said of it. No register changes. -/
def Obligations.ReadEffect : Prop :=
  ∀ s : State,
    exec (.rd 0x000#12) s = .next { s with reads := 0#32 :: s.reads } ∧
    exec (.rd 0x004#12) s = .next { s with reads := statusWord s :: s.reads } ∧
    exec (.rd 0x008#12) s = .next { s with
      reads := (s.KEYCFG_KEYLEN.setWidth 32 <<< 8 ||| s.KEYCFG_NK.setWidth 32) :: s.reads } ∧
    (∀ (addr : Offset) (j : Fin 8), addr.toNat = 0x010 + 4 * j.val →
      exec (.rd addr) s = .next { s with reads := s.KEY[j] :: s.reads }) ∧
    (∀ (addr : Offset) (j : Fin 4), addr.toNat = 0x030 + 4 * j.val →
      exec (.rd addr) s = .next { s with reads := s.DIN[j] :: s.reads }) ∧
    (∀ (addr : Offset) (j : Fin 4), addr.toNat = 0x040 + 4 * j.val →
      exec (.rd addr) s =
        if s.phase = .encrypt then .next { s with reads := Config.freeWord s.draws :: s.reads, draws := s.draws + 1 }
        else .next { s with reads := s.DOUT[j] :: s.reads }) ∧
    (∀ (addr : Offset) (i : Fin 60), addr.toNat = 0x100 + 4 * i.val →
      (s.phase = .expand ∨ s.RK[i] = none →
        exec (.rd addr) s = .next { s with reads := Config.freeWord s.draws :: s.reads, draws := s.draws + 1 }) ∧
      (∀ v, s.phase ≠ .expand → s.RK[i] = some v → exec (.rd addr) s = .next { s with reads := v :: s.reads })) ∧
    (∀ addr : Offset, addr.toNat % 4 = 0 →
      addr.toNat = 0x00C ∨ (0x050 ≤ addr.toNat ∧ addr.toNat ≤ 0x0FC) ∨ 0x1F0 ≤ addr.toNat →
      exec (.rd addr) s = .next { s with reads := 0#32 :: s.reads })

/-- R53: reserved offsets, and which transactions have side effects or may be repeated. -/
def Obligations.SideEffectsOfTransactions : Prop :=
  (∀ (s : State) (addr : Offset), addr.toNat % 4 = 0 →
    addr.toNat = 0x00C ∨ (0x050 ≤ addr.toNat ∧ addr.toNat ≤ 0x0FC) ∨ 0x1F0 ≤ addr.toNat →
    exec (.rd addr) s = .next { s with reads := 0#32 :: s.reads } ∧ ∀ v, exec (.wr addr v) s = .next s) ∧
  (∀ (s t : State) (addr : Offset), exec (.rd addr) s = .next t → t = { s with reads := t.reads, draws := t.draws }) ∧
  (∀ (s t : State) (addr : Offset) (v : Word), exec (.wr addr v) s = .next t → t ≠ s →
    addr.toNat = 0x000 ∨ addr.toNat = 0x008 ∨ (0x010 ≤ addr.toNat ∧ addr.toNat ≤ 0x03C)) ∧
  (∀ (s t : State) (addr : Offset) (v : Word), s.phase = .idle → addr.toNat ≠ 0x000 →
    exec (.wr addr v) s = .next t → exec (.wr addr v) t = .next t) ∧
  (∃ (s t u : State) (v : Word), exec (.wr 0x000#12 v) s = .next t ∧ exec (.wr 0x000#12 v) t = .next u ∧ u ≠ t)

/-- R171–R175: what every aligned write does, in every state. -/
def Obligations.WriteEffect : Prop :=
  ∀ (s : State) (addr : Offset) (v : Word), addr.toNat % 4 = 0 →
    (¬ (addr.toNat = 0x000 ∨ addr.toNat = 0x008 ∨ (0x010 ≤ addr.toNat ∧ addr.toNat ≤ 0x03C)) →
      exec (.wr addr v) s = .next s) ∧
    (addr.toNat = 0x000 ∨ addr.toNat = 0x008 ∨ (0x010 ≤ addr.toNat ∧ addr.toNat ≤ 0x03C) → s.phase ≠ .idle →
      exec (.wr addr v) s = .next { s with ERR := 5#3 }) ∧
    (s.phase = .idle →
      (addr.toNat = 0x008 → exec (.wr addr v) s =
        .next { s with KEYCFG_NK := v.extractLsb' 0 4, KEYCFG_KEYLEN := v.extractLsb' 8 6 }) ∧
      (∀ j : Fin 8, addr.toNat = 0x010 + 4 * j.val → exec (.wr addr v) s = .next { s with KEY := s.KEY.set j v }) ∧
      (∀ j : Fin 4, addr.toNat = 0x030 + 4 * j.val → exec (.wr addr v) s = .next { s with DIN := s.DIN.set j v }) ∧
      (addr.toNat = 0x000 → exec (.wr addr v) s = exec
        (match v.toNat % 4 with | 0 => .nop | 1 => .expandKey | 2 => .encryptBlock | _ => .cmdReserved) s))

/-- R240, R54: a register written while idle reads back its new value, and every other offset of the window reads as
before. KEYCFG keeps its field bits 13:8 and 3:0. -/
def Obligations.WrittenRegisterReadsBack : Prop :=
  ∀ (s : State) (addr : Offset) (v : Word), s.phase = .idle → addr.toNat % 4 = 0 →
    addr.toNat = 0x008 ∨ (0x010 ≤ addr.toNat ∧ addr.toNat ≤ 0x03C) →
    ∃ t, exec (.wr addr v) s = .next t ∧
      readAt addr t = some (if addr.toNat = 0x008 then v &&& 0x00003F0F#32 else v) ∧
      ∀ a : Offset, a.toNat % 4 = 0 → a ≠ addr → readAt a t = readAt a s

/-- R36: reserved bits of KEYCFG and STATUS. -/
def Obligations.ReservedBits : Prop :=
  (∀ (s : State) (v : Word), exec (.wr 0x008#12 v) s = exec (.wr 0x008#12 (v &&& 0x00003F0F#32)) s) ∧
  (∀ (s : State) (v : Word), readAt 0x008#12 s = some v → v &&& 0xFFFFC0F0#32 = 0#32) ∧
  (∀ (s : State) (v : Word), readAt 0x004#12 s = some v → v &&& 0xF0F0F8C8#32 = 0#32)

/-- R73: KEYCFG stores every value with reserved bits dropped, and EXPAND_KEY accepts the three legal values only. -/
def Obligations.LegalKeycfgValues : Prop :=
  ∀ (s : State) (v : Word), s.phase = .idle →
    ∃ t u, exec (.wr 0x008#12 v) s = .next t ∧ exec .expandKey t = .next u ∧
      readAt 0x008#12 t = some (v &&& 0x00003F0F#32) ∧
      (u.phase = .expand ↔ v &&& 0x00003F0F#32 = 0x00001004#32 ∨ v &&& 0x00003F0F#32 = 0x00001806#32 ∨
        v &&& 0x00003F0F#32 = 0x00002008#32) ∧
      (u.phase ≠ .expand → u.phase = .idle ∧ (u.ERR = 1#3 ∨ u.ERR = 2#3))

/-! ## Commands -/

/-- R176: NOP has no effect while idle and is dropped while busy. -/
def Obligations.NopEffect : Prop :=
  (∀ s : State, s.phase = .idle → exec .nop s = .next s) ∧
  (∀ s : State, s.phase ≠ .idle → exec .nop s = .next { s with ERR := 5#3 }) ∧
  decode (.ctrl 0x00000000#32) = .ok .nop ∧ decode (.ctrl 0xFFFFFFFC#32) = .ok .nop

/-- R177, R123: EXPAND_KEY, accepted and rejected. While busy it is dropped (R171). -/
def Obligations.ExpandKeyEffect : Prop :=
  ∀ s : State,
    (s.phase ≠ .idle → exec .expandKey s = .next { s with ERR := 5#3 }) ∧
    (s.phase = .idle → ¬ (s.KEYCFG_NK = 4#4 ∨ s.KEYCFG_NK = 6#4 ∨ s.KEYCFG_NK = 8#4) →
      exec .expandKey s = .next { s with DONE := false, KEY_VALID := false, ERR := 1#3 }) ∧
    (s.phase = .idle → s.KEYCFG_NK = 4#4 ∨ s.KEYCFG_NK = 6#4 ∨ s.KEYCFG_NK = 8#4 →
      s.KEYCFG_KEYLEN.toNat ≠ 4 * s.KEYCFG_NK.toNat →
      exec .expandKey s = .next { s with DONE := false, KEY_VALID := false, ERR := 2#3 }) ∧
    (∀ nr : BitVec 4, s.phase = .idle →
      (s.KEYCFG_NK = 4#4 ∧ nr = 10#4) ∨ (s.KEYCFG_NK = 6#4 ∧ nr = 12#4) ∨ (s.KEYCFG_NK = 8#4 ∧ nr = 14#4) →
      s.KEYCFG_KEYLEN.toNat = 4 * s.KEYCFG_NK.toNat →
      ∃ rk ki, exec .expandKey s = .next { s with
          DONE := false, KEY_VALID := false, ERR := 0#3, SNK := s.KEYCFG_NK, SNR := nr, RK := rk, KI := ki,
          phase := .expand } ∧
        ki.toNat = s.KEYCFG_NK.toNat ∧
        (∀ j : Fin 8, j.val < s.KEYCFG_NK.toNat → rk[j.val] = some s.KEY[j]) ∧
        (∀ j : Fin 60, s.KEYCFG_NK.toNat ≤ j.val → rk[j] = s.RK[j]))

/-- R178: ENCRYPT_BLOCK, accepted and rejected. While busy it is dropped (R171). -/
def Obligations.EncryptBlockEffect : Prop :=
  ∀ s : State,
    (s.phase ≠ .idle → exec .encryptBlock s = .next { s with ERR := 5#3 }) ∧
    (s.phase = .idle → s.KEY_VALID = false →
      exec .encryptBlock s = .next { s with DONE := false, ERR := 4#3 }) ∧
    (s.phase = .idle → s.KEY_VALID = true →
      ∃ st, exec .encryptBlock s =
          .next { s with DONE := false, ERR := 0#3, ST := st, RND := 0#4, phase := .encrypt } ∧
        ∀ r c : Fin 4, cell st r c = lane r s.DIN[c])

/-- R179: the reserved command clears DONE and records RESERVED_COMMAND. While busy it is dropped (R171). -/
def Obligations.ReservedCommandEffect : Prop :=
  ∀ s : State,
    (s.phase ≠ .idle → exec .cmdReserved s = .next { s with ERR := 5#3 }) ∧
    (s.phase = .idle → exec .cmdReserved s = .next { s with DONE := false, ERR := 3#3 }) ∧
    decode (.ctrl 0x00000003#32) = .ok .cmdReserved

/-! ## Engine micro-steps -/

/-- R181, R124: one schedule word, where R37 holds of the sequencer and the words below KI are defined. -/
def Obligations.KexpStepEffect : Prop :=
  ∀ (s : State) (W : Nat → Word), s.phase = .expand →
    (s.SNK = 4#4 ∧ s.SNR = 10#4) ∨ (s.SNK = 6#4 ∧ s.SNR = 12#4) ∨ (s.SNK = 8#4 ∧ s.SNR = 14#4) →
    s.SNK.toNat ≤ s.KI.toNat → s.KI.toNat < 4 * (s.SNR.toNat + 1) →
    (∀ k, k < s.KI.toNat → rkWord s k = some (W k)) →
    ∃ rk ki,
      (s.KI.toNat + 1 < 4 * (s.SNR.toNat + 1) → exec .kexpStep s = .next { s with RK := rk, KI := ki }) ∧
      (s.KI.toNat + 1 = 4 * (s.SNR.toNat + 1) → exec .kexpStep s =
        .next { s with RK := rk, KI := ki, phase := .idle, KEY_VALID := true, DONE := true }) ∧
      ki.toNat = s.KI.toNat + 1 ∧
      ∀ j : Fin 60, rk[j] = if j.val = s.KI.toNat then some (keyStep W s.KI.toNat s.SNK.toNat) else s.RK[j]

/-- R182: the initial AddRoundKey. -/
def Obligations.EncInitialEffect : Prop :=
  ∀ (s : State) (k : Vector Word 4), s.phase = .encrypt → s.RND = 0#4 →
    (∀ c : Fin 4, rkWord s c.val = some k[c]) →
    ∃ st, exec .encInitial s = .next { s with ST := st, RND := 1#4 } ∧
      ∀ r c : Fin 4, cell st r c = cell s.ST r c ^^^ lane r k[c]

/-- R183, R147: one main round: SubBytes, ShiftRows, MixColumns, AddRoundKey, each byte written out. -/
def Obligations.EncRoundEffect : Prop :=
  ∀ (s : State) (k : Vector Word 4), s.phase = .encrypt → 1 ≤ s.RND.toNat → s.RND.toNat + 1 ≤ s.SNR.toNat →
    (∀ c : Fin 4, rkWord s (4 * s.RND.toNat + c.val) = some k[c]) →
    ∃ st rnd, exec .encRound s = .next { s with ST := st, RND := rnd } ∧ rnd.toNat = s.RND.toNat + 1 ∧
      ∀ r c : Fin 4, cell st r c =
        mixColumn (sbox (cell s.ST 0 c)) (sbox (cell s.ST 1 (c + 1))) (sbox (cell s.ST 2 (c + 2)))
          (sbox (cell s.ST 3 (c + 3))) r ^^^ lane r k[c]

/-- R184, R148, R141: the final round, DOUT and the flags in one step. -/
def Obligations.EncFinalEffect : Prop :=
  ∀ (s : State) (k : Vector Word 4), s.phase = .encrypt → s.RND = s.SNR →
    (∀ c : Fin 4, rkWord s (4 * s.SNR.toNat + c.val) = some k[c]) →
    ∃ st dout, exec .encFinal s =
        .next { s with ST := st, DOUT := dout, RND := s.SNR + 1#4, phase := .idle, DONE := true } ∧
      (∀ r c : Fin 4, cell st r c = sbox (cell s.ST r (c + r)) ^^^ lane r k[c]) ∧
      ∀ j : Fin 4, dout[j] = pack (cell st 0 j) (cell st 1 j) (cell st 2 j) (cell st 3 j)

/-! ## Reset -/

/-- R230, R231: reset, at any time, and the state right after it. ST is free. That the model's own turns and reads stay
is assumption 7. -/
def Obligations.ResetEffect : Prop :=
  ∀ s : State, ∃ t, exec .reset s = .next t ∧
    t.KEYCFG_NK = 0#4 ∧ t.KEYCFG_KEYLEN = 0#6 ∧ (∀ j : Fin 8, t.KEY[j] = 0#32) ∧ (∀ j : Fin 4, t.DIN[j] = 0#32) ∧
    (∀ j : Fin 4, t.DOUT[j] = 0#32) ∧ (∀ i : Fin 60, t.RK[i] = none) ∧ t.phase = .idle ∧ t.DONE = false ∧
    t.KEY_VALID = false ∧ t.ERR = 0#3 ∧ t.SNK = 0#4 ∧ t.SNR = 0#4 ∧ t.KI = 0#6 ∧ t.RND = 0#4 ∧
    readAt 0x004#12 t = some 0#32 ∧ t.turns = s.turns ∧ t.reads = s.reads

/-- R230: the machine's reset state holds the reset values of 10_state.md; and with nothing placed the machine stays
there (R213; that a host's turns are placed from outside is assumption 13). -/
def Obligations.ResetStateValues : Prop :=
  State.reset.KEYCFG_NK = 0#4 ∧ State.reset.KEYCFG_KEYLEN = 0#6 ∧ (∀ j : Fin 8, State.reset.KEY[j] = 0#32) ∧
  (∀ j : Fin 4, State.reset.DIN[j] = 0#32) ∧ (∀ j : Fin 4, State.reset.DOUT[j] = 0#32) ∧
  (∀ i : Fin 60, State.reset.RK[i] = none) ∧ State.reset.phase = .idle ∧ State.reset.DONE = false ∧
  State.reset.KEY_VALID = false ∧ State.reset.ERR = 0#3 ∧ State.reset.SNK = 0#4 ∧ State.reset.SNR = 0#4 ∧
  State.reset.KI = 0#6 ∧ State.reset.RND = 0#4 ∧
  ∀ n, run n State.reset = .next State.reset

/-- After reset the core is idle with no usable schedule, and ENCRYPT_BLOCK fails with NO_SCHEDULE (R232, the spec's own
inference from R230 and R178). -/
def Obligations.NoScheduleAfterReset : Prop :=
  ∀ s t : State, exec .reset s = .next t → t.phase = .idle ∧ t.KEY_VALID = false ∧
    exec .encryptBlock t = .next { t with ERR := 4#3 }

/-! ## Errors -/

/-- R202: the checks of a host transaction in their order; a read records no error. -/
def Obligations.ErrorPriority : Prop :=
  (∀ (s t : State) (addr : Offset), exec (.rd addr) s = .next t → t.ERR = s.ERR) ∧
  (∀ (s : State) (addr : Offset) (v : Word), addr.toNat % 4 = 0 → ∃ t, exec (.wr addr v) s = .next t ∧
    t.ERR =
      if ¬ (addr.toNat = 0x000 ∨ addr.toNat = 0x008 ∨ (0x010 ≤ addr.toNat ∧ addr.toNat ≤ 0x03C)) then s.ERR
      else if s.phase ≠ .idle then 5#3
      else if addr.toNat ≠ 0x000 then s.ERR
      else if v.toNat % 4 = 3 then 3#3
      else if v.toNat % 4 = 1 then
        if ¬ (s.KEYCFG_NK = 4#4 ∨ s.KEYCFG_NK = 6#4 ∨ s.KEYCFG_NK = 8#4) then 1#3
        else if s.KEYCFG_KEYLEN.toNat ≠ 4 * s.KEYCFG_NK.toNat then 2#3 else 0#3
      else if v.toNat % 4 = 2 then if s.KEY_VALID = false then 4#3 else 0#3
      else s.ERR)

/-- R203: a command that is not accepted changes DONE, KEY_VALID and ERR at most. -/
def Obligations.RejectedCommandIsPrecise : Prop :=
  ∀ (i : Instr) (c : Cmd) (s t : State), commandOf i = some c → exec i s = .next t → t.phase = s.phase →
    t = { s with DONE := t.DONE, KEY_VALID := t.KEY_VALID, ERR := t.ERR }

/-- R204: ERR is set to 0 only by an accepted command and by reset. -/
def Obligations.ErrorClearedOnlyByAcceptance : Prop :=
  ∀ (i : Instr) (s t : State), exec i s = .next t → s.ERR ≠ 0#3 → t.ERR = 0#3 →
    i = .reset ∨ ((commandOf i = some .expandKey ∨ commandOf i = some .encryptBlock) ∧
      s.phase = .idle ∧ t.phase ≠ .idle)

/-! ## Which operations write a register -/

/-- R24: only the final encryption step and reset write DOUT. -/
def Obligations.DoutWrittenByFinalStepOnly : Prop :=
  ∀ (i : Instr) (s t : State), exec i s = .next t → t.DOUT ≠ s.DOUT → i = .encFinal ∨ i = .reset

/-- R25, R127: only an accepted EXPAND_KEY, an expansion step and reset write RK. -/
def Obligations.ScheduleWrittenByExpansionOnly : Prop :=
  ∀ (i : Instr) (s t : State), exec i s = .next t → t.RK ≠ s.RK →
    (i = .kexpStep ∧ s.phase = .expand) ∨ i = .reset ∨
    (commandOf i = some .expandKey ∧ s.phase = .idle ∧ t.phase = .expand)

/-- R28: DONE is set by the last engine step of a command, cleared by every CTRL write with CMD ≠ 0 made while idle, and
unchanged by everything else but reset. -/
def Obligations.DoneFollowsCommands : Prop :=
  ∀ (i : Instr) (s t : State), exec i s = .next t →
    (engineOperation i = true → t.DONE = if t.phase = .idle then true else s.DONE) ∧
    (∀ c, commandOf i = some c → t.DONE = if s.phase = .idle ∧ c ≠ .nop then false else s.DONE) ∧
    (engineOperation i = false → commandOf i = none → i ≠ .reset → t.DONE = s.DONE)

/-- R29: KEY_VALID is cleared by every EXPAND_KEY issued while idle, set by the last expansion step, and unchanged by
everything else but reset. -/
def Obligations.KeyValidFollowsExpansion : Prop :=
  ∀ (i : Instr) (s t : State), exec i s = .next t →
    (commandOf i = some .expandKey → s.phase = .idle → t.KEY_VALID = false) ∧
    (i = .kexpStep → t.KEY_VALID = if t.phase = .idle then true else s.KEY_VALID) ∧
    (i ≠ .reset → i ≠ .kexpStep → ¬ (commandOf i = some .expandKey ∧ s.phase = .idle) → t.KEY_VALID = s.KEY_VALID)

/-- R31: SNK and SNR are latched when an EXPAND_KEY is accepted, and unchanged by everything else but reset. -/
def Obligations.ScheduleClassLatchedAtAcceptance : Prop :=
  ∀ (i : Instr) (s t : State), exec i s = .next t →
    (commandOf i = some .expandKey → s.phase = .idle → t.phase = .expand →
      t.SNK = s.KEYCFG_NK ∧ nrOf s.KEYCFG_NK.toNat = some t.SNR.toNat) ∧
    (i ≠ .reset → ¬ (commandOf i = some .expandKey ∧ s.phase = .idle ∧ t.phase = .expand) →
      t.SNK = s.SNK ∧ t.SNR = s.SNR)

/-- R27: only an accepted command, the last engine step of a command and reset write phase. -/
def Obligations.PhaseChanges : Prop :=
  ∀ (i : Instr) (s t : State), exec i s = .next t → t.phase ≠ s.phase →
    (s.phase = .idle ∧ t.phase = .expand ∧ commandOf i = some .expandKey) ∨
    (s.phase = .idle ∧ t.phase = .encrypt ∧ commandOf i = some .encryptBlock) ∨
    (s.phase = .expand ∧ t.phase = .idle ∧ i = .kexpStep) ∨
    (s.phase = .encrypt ∧ t.phase = .idle ∧ i = .encFinal) ∨ i = .reset

/-- R21–R23, R172–R174: a host write to KEYCFG, a KEYj or a DINj while idle leaves there the value written (KEYCFG's two
fields of it), and every other operation but reset leaves that register as it was. -/
def Obligations.InputsWrittenByHostOnly : Prop :=
  ∀ (i : Instr) (s t : State), exec i s = .next t →
    (∀ v, i = .wr 0x008#12 v → s.phase = .idle →
      t.KEYCFG_NK = v.extractLsb' 0 4 ∧ t.KEYCFG_KEYLEN = v.extractLsb' 8 6) ∧
    (i ≠ .reset → ¬ (s.phase = .idle ∧ ∃ v, i = .wr 0x008#12 v) →
      t.KEYCFG_NK = s.KEYCFG_NK ∧ t.KEYCFG_KEYLEN = s.KEYCFG_KEYLEN) ∧
    (∀ j : Fin 8,
      (∀ addr v, i = .wr addr v → addr.toNat = 0x010 + 4 * j.val → s.phase = .idle → t.KEY[j] = v) ∧
      (i ≠ .reset → ¬ (s.phase = .idle ∧ ∃ addr v, i = .wr addr v ∧ addr.toNat = 0x010 + 4 * j.val) →
        t.KEY[j] = s.KEY[j])) ∧
    (∀ j : Fin 4,
      (∀ addr v, i = .wr addr v → addr.toNat = 0x030 + 4 * j.val → s.phase = .idle → t.DIN[j] = v) ∧
      (i ≠ .reset → ¬ (s.phase = .idle ∧ ∃ addr v, i = .wr addr v ∧ addr.toNat = 0x030 + 4 * j.val) →
        t.DIN[j] = s.DIN[j]))

/-- R33, R34: ST and RND change only by an accepted ENCRYPT_BLOCK and the encryption steps, KI only by an accepted
EXPAND_KEY and the expansion step, all three by reset. -/
def Obligations.HiddenStateWrittenByItsCommand : Prop :=
  ∀ (i : Instr) (s t : State), exec i s = .next t → i ≠ .reset →
    ((t.ST = s.ST ∧ t.RND = s.RND) ∨ i = .encInitial ∨ i = .encRound ∨ i = .encFinal ∨
      (commandOf i = some .encryptBlock ∧ s.phase = .idle ∧ t.phase = .encrypt)) ∧
    (t.KI = s.KI ∨ i = .kexpStep ∨ (commandOf i = some .expandKey ∧ s.phase = .idle ∧ t.phase = .expand))

/-! ## What can influence a command -/

/-- R180, R15, R235: while a command runs, no host operation changes more than ERR and what the host has read. -/
def Obligations.HostCannotDisturbCommand : Prop :=
  ∀ (i : Instr) (s : State), hostOperation i = true → i.wf = true → s.phase ≠ .idle →
    ∃ t, exec i s = .next t ∧ t = { s with ERR := t.ERR, reads := t.reads, draws := t.draws }

/-- R62: the engine steps read only phase, RK, ST, SNK, SNR, KI and RND. -/
def Obligations.EngineReadsSequencerOnly : Prop :=
  ∀ (i : Instr) (s u t : State), engineOperation i = true →
    u.phase = s.phase → u.RK = s.RK → u.ST = s.ST → u.SNK = s.SNK → u.SNR = s.SNR → u.KI = s.KI → u.RND = s.RND →
    exec i s = .next t →
    ∃ v, exec i u = .next v ∧
      v = { u with phase := t.phase, RK := t.RK, ST := t.ST, KI := t.KI, RND := t.RND, DOUT := v.DOUT,
                   KEY_VALID := v.KEY_VALID, DONE := v.DONE } ∧
      (v.DOUT = t.DOUT ∨ v.DOUT = u.DOUT ∧ t.DOUT = s.DOUT) ∧
      (v.KEY_VALID = t.KEY_VALID ∨ v.KEY_VALID = u.KEY_VALID ∧ t.KEY_VALID = s.KEY_VALID) ∧
      (v.DONE = t.DONE ∨ v.DONE = u.DONE ∧ t.DONE = s.DONE)

/-- R22: EXPAND_KEY ignores KEYj for j ≥ NK. -/
def Obligations.UpperKeyRegistersIgnored : Prop :=
  ∀ (s : State) (key : Vector Word 8), (∀ j : Fin 8, j.val < s.KEYCFG_NK.toNat → key[j] = s.KEY[j]) →
    ∃ t, exec .expandKey s = .next t ∧ exec .expandKey { s with KEY := key } = .next { t with KEY := key }

/-- R189, the spec's own inference: two states that differ only in what the host has read and in the draws to come
take the same step, reset aside. -/
def Obligations.StepsEqualApartFromDraws : Prop :=
  ∀ (s t : State) (reads : List Word) (draws : Nat), (∀ rest, s.turns ≠ .rst :: rest) → step s = .next t →
    ∃ reads' draws', step { s with reads := reads, draws := draws } = .next { t with reads := reads', draws := draws' }

/-! ## Invariants -/

/-- Right after reset State.Inv holds, for every key and block a past may name, where the past's last command is no
ENCRYPT_BLOCK. State.Inv is R37's six invariants, the spec's own inference, over the record Latched, with the clauses of
assumption 20 beside them (DESIGN CHOICE). -/
def Obligations.ResetMeetsInvariants : Prop :=
  ∀ (key : Nat → Byte) (block : Vector Byte 16), State.reset.Inv ⟨key, block, false⟩

/-- Every step from a state that meets State.Inv leads to one that does, for the past the step leaves. State.Inv is
R37's six invariants, the spec's own inference, over the record Latched; the clauses beside them (a running
encryption's State is the one its rounds so far give, a running expansion's past names no ENCRYPT_BLOCK, ERR is at
most 5) are assumption 20 (DESIGN CHOICE), assumed and concluded here. -/
def Obligations.StepKeepsInvariants : Prop :=
  ∀ (h : Latched) (s t : State), s.Inv h → step s = .next t → t.Inv (h.after s t)

/-- R37, R76, R200: under State.Inv (assumption 20) no step faults, and only a transaction outside the interface is
refused. -/
def Obligations.InvariantsRuleOutStops : Prop :=
  ∀ (h : Latched) (s : State), s.Inv h →
    (∃ t, step s = .next t) ∨
    (∃ size w rest, s.turns = .bus size w :: rest ∧ (size ≠ 32 ∨ w.toNat / 2 ^ 32 % 4 ≠ 0) ∧ ∃ r, step s = .refused r)

/-! ## Whole commands -/

/-- R241, R34, and R242, the spec's own inference: a running command reaches IDLE after exactly its remaining engine
steps. That the engine goes on is the weak fairness of R180 (assumption 2); State.Inv is assumption 20. -/
def Obligations.CommandCompletes : Prop :=
  ∀ (h : Latched) (s : State), s.Inv h → s.turns = [] → s.phase ≠ .idle →
    (∀ n, n < remainingSteps s → ∃ t, run n s = .next t ∧ t.phase ≠ .idle) ∧
    ∃ t, run (remainingSteps s) s = .next t ∧ t.phase = .idle ∧ t.DONE = true

/-- R185, the spec's own inference: an accepted EXPAND_KEY, with 4·(NrOf(NK)+1) − NK engine steps interleaved in any
way with host turns, leaves the key's expansion in RK. -/
def Obligations.ExpandKeyComputesKeyExpansion : Prop :=
  ∀ (s : State) (v : Word) (nr : Nat) (mid : List Turn), s.phase = .idle → cmdOf v = .expandKey →
    nrOf s.KEYCFG_NK.toNat = some nr → s.KEYCFG_KEYLEN.toNat = 4 * s.KEYCFG_NK.toNat →
    mid.all Turn.withinCommand = true → mid.count .engine + 1 = 4 * (nr + 1) - s.KEYCFG_NK.toNat →
    ∃ t W, run (mid.length + 2) { s with turns := .ctrl v :: (mid ++ [.engine]) } = .next t ∧
      keyExpansion (keyBytes s.KEY) s.KEYCFG_NK.toNat = some W ∧ W.length = 4 * (nr + 1) ∧
      (∀ i, i < 4 * (nr + 1) → rkWord t i = W[i]?) ∧ (∀ i, 4 * (nr + 1) ≤ i → rkWord t i = rkWord s i) ∧
      t = { s with RK := t.RK, phase := .idle, KEY_VALID := true, DONE := true, SNK := s.KEYCFG_NK, SNR := t.SNR,
                   KI := t.KI, ERR := if mid.any Turn.writesRegister then 5#3 else 0#3, turns := [],
                   reads := t.reads, draws := t.draws } ∧
      t.SNR.toNat = nr ∧ t.KI.toNat = 4 * (nr + 1)

/-- R186, the spec's own inference: an accepted ENCRYPT_BLOCK, with SNR+1 engine steps interleaved in any way with
host turns, leaves Cipher of the block and the schedule in DOUT. State.Inv, which names the schedule in RK,
is assumption 20. -/
def Obligations.EncryptBlockComputesCipher : Prop :=
  ∀ (h : Latched) (s : State) (v : Word) (mid : List Turn), s.Inv h → s.phase = .idle → cmdOf v = .encryptBlock →
    s.KEY_VALID = true → mid.all Turn.withinCommand = true → mid.count .engine = s.SNR.toNat →
    ∃ t, run (mid.length + 2) { s with turns := .ctrl v :: (mid ++ [.engine]) } = .next t ∧
      t.DOUT = packBlock (cipher (inputBytes s.DIN) (rkValue s) s.SNR.toNat) ∧
      t = { s with DOUT := t.DOUT, ST := t.ST, RND := s.SNR + 1#4, phase := .idle, DONE := true,
                   ERR := if mid.any Turn.writesRegister then 5#3 else 0#3, turns := [],
                   reads := t.reads, draws := t.draws }

/-- R177, R178, R125, R149 together: EXPAND_KEY and then ENCRYPT_BLOCK, each run to its end, leave in DOUT the AES
encryption of DIN under KEY. -/
def Obligations.CoreEncryptsUnderItsKey : Prop :=
  ∀ (s : State) (nr : Nat), s.phase = .idle → nrOf s.KEYCFG_NK.toNat = some nr →
    s.KEYCFG_KEYLEN.toNat = 4 * s.KEYCFG_NK.toNat →
    ∃ t W, run (4 * (nr + 1) - s.KEYCFG_NK.toNat + nr + 3)
        { s with turns := .ctrl 1#32 :: (List.replicate (4 * (nr + 1) - s.KEYCFG_NK.toNat) .engine ++
            .ctrl 2#32 :: List.replicate (nr + 1) .engine) } = .next t ∧
      keyExpansion (keyBytes s.KEY) s.KEYCFG_NK.toNat = some W ∧
      t.DOUT = packBlock (cipher (inputBytes s.DIN) (fun i => W.getD i 0#32) nr) ∧
      t.phase = .idle ∧ t.DONE = true ∧ t.KEY_VALID = true ∧ t.ERR = 0#3 ∧ t.KEY = s.KEY ∧ t.DIN = s.DIN

/-! ## Datapath -/

/-- R100, and R102, which the spec infers from it: xtime is multiplication by 2 in GF(2^8), linear and a bijection; x
⊕ xtime(x) is multiplication by 3. -/
def Obligations.XtimeLaws : Prop :=
  (∀ a b : Byte, xtime (a ^^^ b) = xtime a ^^^ xtime b) ∧ (∀ x : Byte, xtime x = gfMul 2#8 x) ∧
  (∀ x : Byte, x ^^^ xtime x = gfMul 3#8 x) ∧ 0x57#8 ^^^ xtime 0x57#8 = 0xF9#8 ∧
  (∀ x : Byte, xtime x = 0#8 → x = 0#8) ∧ (∀ x y : Byte, xtime x = xtime y → x = y) ∧ ∀ y : Byte, ∃ x, xtime x = y

/-- R104, R105: the table is the generator's, A of the inverse in GF(2^8), a permutation with no fixed point. Table and
generator are passages the spec marks as general knowledge (assumption 16). -/
def Obligations.SboxIsAffineInverse : Prop :=
  sbox 0#8 = affine 0#8 ∧ (∀ x : Byte, x ≠ 0#8 → ∃ y, gfMul x y = 1#8 ∧ sbox x = affine y) ∧
  (∀ x y : Byte, sbox x = sbox y → x = y) ∧ ∀ x : Byte, sbox x ≠ x

/-- R106, R120: SubWord and RotWord, lane by lane. -/
def Obligations.WordFunctionsByLane : Prop :=
  (∀ a b c d : Byte, subWord (pack a b c d) = pack (sbox a) (sbox b) (sbox c) (sbox d)) ∧
  (∀ a b c d : Byte, rotWord (pack a b c d) = pack b c d a) ∧
  (∀ v : Word, rotWord (rotWord (rotWord (rotWord v))) = v) ∧
  (∀ v w : Word, ∀ k : Fin 4, lane k (v ^^^ w) = lane k v ^^^ lane k w)

/-- R121: each round constant is the double of the one before it in lane 0 and zero in the others, and the ten values.
-/
def Obligations.RoundConstants : Prop :=
  (∀ k, 1 ≤ k → k ≤ 9 → ∃ r : Byte, rcon k = pack r 0#8 0#8 0#8 ∧ rcon (k + 1) = pack (xtime r) 0#8 0#8 0#8) ∧
  (List.range 10).map (fun k => rcon (k + 1)) =
    [0x01000000#32, 0x02000000#32, 0x04000000#32, 0x08000000#32, 0x10000000#32, 0x20000000#32, 0x40000000#32,
     0x80000000#32, 0x1b000000#32, 0x36000000#32]

/-- R124: which branch KeyStep takes at each index of the schedule; the SubWord-only branch is for Nk = 8 alone. -/
def Obligations.KeyStepBranches : Prop :=
  ∀ (W : Nat → Word) (i nk nr : Nat), (nk = 4 ∧ nr = 10) ∨ (nk = 6 ∧ nr = 12) ∨ (nk = 8 ∧ nr = 14) →
    nk ≤ i → i < 4 * (nr + 1) →
    (i % nk = 0 → keyStep W i nk = W (i - nk) ^^^ (subWord (rotWord (W (i - 1))) ^^^ rcon (i / nk))) ∧
    (i % nk ≠ 0 → nk = 8 → i % nk = 4 → keyStep W i nk = W (i - nk) ^^^ subWord (W (i - 1))) ∧
    (i % nk ≠ 0 → ¬ (nk = 8 ∧ i % nk = 4) → keyStep W i nk = W (i - nk) ^^^ W (i - 1))

/-- R125: the whole expansion has 4·(NrOf(Nk)+1) words, the key's words first and then KeyStep's. -/
def Obligations.KeyExpansionByItsLoops : Prop :=
  ∀ (key : Nat → Byte) (nk nr : Nat), (nk = 4 ∧ nr = 10) ∨ (nk = 6 ∧ nr = 12) ∨ (nk = 8 ∧ nr = 14) →
    ∃ W, keyExpansion key nk = some W ∧ W.length = 4 * (nr + 1) ∧
      (∀ i, i < nk → W[i]? = some (pack (key (4 * i)) (key (4 * i + 1)) (key (4 * i + 2)) (key (4 * i + 3)))) ∧
      ∀ i, nk ≤ i → i < 4 * (nr + 1) → W[i]? = some (keyStep (fun k => W.getD k 0#32) i nk)

/-- R140, R141, R55: the block mappings, and that storing inverts loading. -/
def Obligations.BlockMappings : Prop :=
  (∀ x : Vector Byte 16, storeState (loadState x) = x) ∧
  (∀ (x : Vector Byte 16) (i : Fin 16),
    cell (loadState x) ⟨i.val % 4, by omega⟩ ⟨i.val / 4, by omega⟩ = x[i]) ∧
  (∀ (st : Vector Byte 16) (i j : Fin 4), (storeState st)[4 * j.val + i.val] = cell st i j) ∧
  (∀ (din : Vector Word 4) (r c : Fin 4), cell (loadState (inputBytes din)) r c = lane r din[c])

/-- R142, R143, R147: SubBytes is lane-wise, ShiftRows rotates row r left by r, four times it is the identity, and the
two commute. -/
def Obligations.SubBytesAndShiftRows : Prop :=
  (∀ (st : Vector Byte 16) (r c : Fin 4), cell (subBytes st) r c = sbox (cell st r c)) ∧
  (∀ (st : Vector Byte 16) (r c : Fin 4), cell (shiftRows st) r c = cell st r ⟨(c.val + r.val) % 4, by omega⟩) ∧
  (∀ st : Vector Byte 16, shiftRows (shiftRows (shiftRows (shiftRows st))) = st) ∧
  (∀ st : Vector Byte 16, subBytes (shiftRows st) = shiftRows (subBytes st))

/-- R144, R145: MixColumns is multiplication of each column by the circulant matrix [2 3 1 1] over GF(2^8), as the spec
infers from MixColumn and xtime. -/
def Obligations.MixColumnsIsCirculant : Prop :=
  ∀ (st : Vector Byte 16) (c : Fin 4),
    cell (mixColumns st) 0 c = gfMul 2#8 (cell st 0 c) ^^^ gfMul 3#8 (cell st 1 c) ^^^ cell st 2 c ^^^ cell st 3 c ∧
    cell (mixColumns st) 1 c = cell st 0 c ^^^ gfMul 2#8 (cell st 1 c) ^^^ gfMul 3#8 (cell st 2 c) ^^^ cell st 3 c ∧
    cell (mixColumns st) 2 c = cell st 0 c ^^^ cell st 1 c ^^^ gfMul 2#8 (cell st 2 c) ^^^ gfMul 3#8 (cell st 3 c) ∧
    cell (mixColumns st) 3 c = gfMul 3#8 (cell st 0 c) ^^^ cell st 1 c ^^^ cell st 2 c ^^^ gfMul 2#8 (cell st 3 c)

/-- R146, R126 (operator and orientation: assumption 16): AddRoundKey is bytewise XOR with the round key's columns;
twice it is the identity. -/
def Obligations.AddRoundKeyLaws : Prop :=
  (∀ (st : Vector Byte 16) (W : Nat → Word) (r : Nat) (j c : Fin 4),
    cell (addRoundKey st (roundKeyOf W r)) j c = cell st j c ^^^ lane j (W (4 * r + c.val))) ∧
  (∀ st : Vector Byte 16, addRoundKey st #v[0#32, 0#32, 0#32, 0#32] = st) ∧
  (∀ (st : Vector Byte 16) (k : Vector Word 4), addRoundKey (addRoundKey st k) k = st)

/-- R149: Cipher is the initial AddRoundKey, Nr−1 main rounds in order and the final round. -/
def Obligations.CipherByItsRounds : Prop :=
  ∀ (inp : Vector Byte 16) (W : Nat → Word) (nr : Nat), nr = 10 ∨ nr = 12 ∨ nr = 14 →
    cipher inp W nr =
      storeState (finalRound
        ((List.range (nr - 1)).foldl (fun st r => mainRound st (roundKeyOf W (r + 1)))
          (addRoundKey (loadState inp) (roundKeyOf W 0)))
        (roundKeyOf W nr))
end

