-- ==== Sys2Proof/Laws/State.lean ====
section
/-! SUPPORT. One lemma per field for each named update of State, true by rfl, so that no later proof unfolds an update. -/

namespace Sys2Proof.Machine

@[simp] theorem raise_KEYCFG_NK (e : ErrCode) (s : State) : (raise e s).KEYCFG_NK = s.KEYCFG_NK := rfl
@[simp] theorem raise_KEYCFG_KEYLEN (e : ErrCode) (s : State) : (raise e s).KEYCFG_KEYLEN = s.KEYCFG_KEYLEN := rfl
@[simp] theorem raise_KEY (e : ErrCode) (s : State) : (raise e s).KEY = s.KEY := rfl
@[simp] theorem raise_DIN (e : ErrCode) (s : State) : (raise e s).DIN = s.DIN := rfl
@[simp] theorem raise_DOUT (e : ErrCode) (s : State) : (raise e s).DOUT = s.DOUT := rfl
@[simp] theorem raise_RK (e : ErrCode) (s : State) : (raise e s).RK = s.RK := rfl
@[simp] theorem raise_phase (e : ErrCode) (s : State) : (raise e s).phase = s.phase := rfl
@[simp] theorem raise_DONE (e : ErrCode) (s : State) : (raise e s).DONE = s.DONE := rfl
@[simp] theorem raise_KEY_VALID (e : ErrCode) (s : State) : (raise e s).KEY_VALID = s.KEY_VALID := rfl
@[simp] theorem raise_ERR (e : ErrCode) (s : State) : (raise e s).ERR = e.code := rfl
@[simp] theorem raise_SNK (e : ErrCode) (s : State) : (raise e s).SNK = s.SNK := rfl
@[simp] theorem raise_SNR (e : ErrCode) (s : State) : (raise e s).SNR = s.SNR := rfl
@[simp] theorem raise_ST (e : ErrCode) (s : State) : (raise e s).ST = s.ST := rfl
@[simp] theorem raise_KI (e : ErrCode) (s : State) : (raise e s).KI = s.KI := rfl
@[simp] theorem raise_RND (e : ErrCode) (s : State) : (raise e s).RND = s.RND := rfl
@[simp] theorem raise_turns (e : ErrCode) (s : State) : (raise e s).turns = s.turns := rfl
@[simp] theorem raise_reads (e : ErrCode) (s : State) : (raise e s).reads = s.reads := rfl
@[simp] theorem raise_draws (e : ErrCode) (s : State) : (raise e s).draws = s.draws := rfl

@[simp] theorem returnRead_KEYCFG_NK (v : Word) (s : State) : (returnRead v s).KEYCFG_NK = s.KEYCFG_NK := rfl
@[simp] theorem returnRead_KEYCFG_KEYLEN (v : Word) (s : State) : (returnRead v s).KEYCFG_KEYLEN = s.KEYCFG_KEYLEN := rfl
@[simp] theorem returnRead_KEY (v : Word) (s : State) : (returnRead v s).KEY = s.KEY := rfl
@[simp] theorem returnRead_DIN (v : Word) (s : State) : (returnRead v s).DIN = s.DIN := rfl
@[simp] theorem returnRead_DOUT (v : Word) (s : State) : (returnRead v s).DOUT = s.DOUT := rfl
@[simp] theorem returnRead_RK (v : Word) (s : State) : (returnRead v s).RK = s.RK := rfl
@[simp] theorem returnRead_phase (v : Word) (s : State) : (returnRead v s).phase = s.phase := rfl
@[simp] theorem returnRead_DONE (v : Word) (s : State) : (returnRead v s).DONE = s.DONE := rfl
@[simp] theorem returnRead_KEY_VALID (v : Word) (s : State) : (returnRead v s).KEY_VALID = s.KEY_VALID := rfl
@[simp] theorem returnRead_ERR (v : Word) (s : State) : (returnRead v s).ERR = s.ERR := rfl
@[simp] theorem returnRead_SNK (v : Word) (s : State) : (returnRead v s).SNK = s.SNK := rfl
@[simp] theorem returnRead_SNR (v : Word) (s : State) : (returnRead v s).SNR = s.SNR := rfl
@[simp] theorem returnRead_ST (v : Word) (s : State) : (returnRead v s).ST = s.ST := rfl
@[simp] theorem returnRead_KI (v : Word) (s : State) : (returnRead v s).KI = s.KI := rfl
@[simp] theorem returnRead_RND (v : Word) (s : State) : (returnRead v s).RND = s.RND := rfl
@[simp] theorem returnRead_turns (v : Word) (s : State) : (returnRead v s).turns = s.turns := rfl
@[simp] theorem returnRead_reads (v : Word) (s : State) : (returnRead v s).reads = v :: s.reads := rfl
@[simp] theorem returnRead_draws (v : Word) (s : State) : (returnRead v s).draws = s.draws := rfl

@[simp] theorem returnAny_KEYCFG_NK (s : State) : (returnAny s).KEYCFG_NK = s.KEYCFG_NK := rfl
@[simp] theorem returnAny_KEYCFG_KEYLEN (s : State) : (returnAny s).KEYCFG_KEYLEN = s.KEYCFG_KEYLEN := rfl
@[simp] theorem returnAny_KEY (s : State) : (returnAny s).KEY = s.KEY := rfl
@[simp] theorem returnAny_DIN (s : State) : (returnAny s).DIN = s.DIN := rfl
@[simp] theorem returnAny_DOUT (s : State) : (returnAny s).DOUT = s.DOUT := rfl
@[simp] theorem returnAny_RK (s : State) : (returnAny s).RK = s.RK := rfl
@[simp] theorem returnAny_phase (s : State) : (returnAny s).phase = s.phase := rfl
@[simp] theorem returnAny_DONE (s : State) : (returnAny s).DONE = s.DONE := rfl
@[simp] theorem returnAny_KEY_VALID (s : State) : (returnAny s).KEY_VALID = s.KEY_VALID := rfl
@[simp] theorem returnAny_ERR (s : State) : (returnAny s).ERR = s.ERR := rfl
@[simp] theorem returnAny_SNK (s : State) : (returnAny s).SNK = s.SNK := rfl
@[simp] theorem returnAny_SNR (s : State) : (returnAny s).SNR = s.SNR := rfl
@[simp] theorem returnAny_ST (s : State) : (returnAny s).ST = s.ST := rfl
@[simp] theorem returnAny_KI (s : State) : (returnAny s).KI = s.KI := rfl
@[simp] theorem returnAny_RND (s : State) : (returnAny s).RND = s.RND := rfl
@[simp] theorem returnAny_turns (s : State) : (returnAny s).turns = s.turns := rfl
@[simp] theorem returnAny_reads (s : State) : (returnAny s).reads = Config.freeWord s.draws :: s.reads := rfl
@[simp] theorem returnAny_draws (s : State) : (returnAny s).draws = s.draws + 1 := rfl

@[simp] theorem writeKeycfg_KEYCFG_NK (v : Word) (s : State) : (writeKeycfg v s).KEYCFG_NK = keycfgNk v := rfl
@[simp] theorem writeKeycfg_KEYCFG_KEYLEN (v : Word) (s : State) : (writeKeycfg v s).KEYCFG_KEYLEN = keycfgKeylen v := rfl
@[simp] theorem writeKeycfg_KEY (v : Word) (s : State) : (writeKeycfg v s).KEY = s.KEY := rfl
@[simp] theorem writeKeycfg_DIN (v : Word) (s : State) : (writeKeycfg v s).DIN = s.DIN := rfl
@[simp] theorem writeKeycfg_DOUT (v : Word) (s : State) : (writeKeycfg v s).DOUT = s.DOUT := rfl
@[simp] theorem writeKeycfg_RK (v : Word) (s : State) : (writeKeycfg v s).RK = s.RK := rfl
@[simp] theorem writeKeycfg_phase (v : Word) (s : State) : (writeKeycfg v s).phase = s.phase := rfl
@[simp] theorem writeKeycfg_DONE (v : Word) (s : State) : (writeKeycfg v s).DONE = s.DONE := rfl
@[simp] theorem writeKeycfg_KEY_VALID (v : Word) (s : State) : (writeKeycfg v s).KEY_VALID = s.KEY_VALID := rfl
@[simp] theorem writeKeycfg_ERR (v : Word) (s : State) : (writeKeycfg v s).ERR = s.ERR := rfl
@[simp] theorem writeKeycfg_SNK (v : Word) (s : State) : (writeKeycfg v s).SNK = s.SNK := rfl
@[simp] theorem writeKeycfg_SNR (v : Word) (s : State) : (writeKeycfg v s).SNR = s.SNR := rfl
@[simp] theorem writeKeycfg_ST (v : Word) (s : State) : (writeKeycfg v s).ST = s.ST := rfl
@[simp] theorem writeKeycfg_KI (v : Word) (s : State) : (writeKeycfg v s).KI = s.KI := rfl
@[simp] theorem writeKeycfg_RND (v : Word) (s : State) : (writeKeycfg v s).RND = s.RND := rfl
@[simp] theorem writeKeycfg_turns (v : Word) (s : State) : (writeKeycfg v s).turns = s.turns := rfl
@[simp] theorem writeKeycfg_reads (v : Word) (s : State) : (writeKeycfg v s).reads = s.reads := rfl
@[simp] theorem writeKeycfg_draws (v : Word) (s : State) : (writeKeycfg v s).draws = s.draws := rfl

@[simp] theorem writeKey_KEYCFG_NK (j : Fin 8) (v : Word) (s : State) : (writeKey j v s).KEYCFG_NK = s.KEYCFG_NK := rfl
@[simp] theorem writeKey_KEYCFG_KEYLEN (j : Fin 8) (v : Word) (s : State) : (writeKey j v s).KEYCFG_KEYLEN = s.KEYCFG_KEYLEN := rfl
@[simp] theorem writeKey_KEY (j : Fin 8) (v : Word) (s : State) : (writeKey j v s).KEY = s.KEY.set j v := rfl
@[simp] theorem writeKey_DIN (j : Fin 8) (v : Word) (s : State) : (writeKey j v s).DIN = s.DIN := rfl
@[simp] theorem writeKey_DOUT (j : Fin 8) (v : Word) (s : State) : (writeKey j v s).DOUT = s.DOUT := rfl
@[simp] theorem writeKey_RK (j : Fin 8) (v : Word) (s : State) : (writeKey j v s).RK = s.RK := rfl
@[simp] theorem writeKey_phase (j : Fin 8) (v : Word) (s : State) : (writeKey j v s).phase = s.phase := rfl
@[simp] theorem writeKey_DONE (j : Fin 8) (v : Word) (s : State) : (writeKey j v s).DONE = s.DONE := rfl
@[simp] theorem writeKey_KEY_VALID (j : Fin 8) (v : Word) (s : State) : (writeKey j v s).KEY_VALID = s.KEY_VALID := rfl
@[simp] theorem writeKey_ERR (j : Fin 8) (v : Word) (s : State) : (writeKey j v s).ERR = s.ERR := rfl
@[simp] theorem writeKey_SNK (j : Fin 8) (v : Word) (s : State) : (writeKey j v s).SNK = s.SNK := rfl
@[simp] theorem writeKey_SNR (j : Fin 8) (v : Word) (s : State) : (writeKey j v s).SNR = s.SNR := rfl
@[simp] theorem writeKey_ST (j : Fin 8) (v : Word) (s : State) : (writeKey j v s).ST = s.ST := rfl
@[simp] theorem writeKey_KI (j : Fin 8) (v : Word) (s : State) : (writeKey j v s).KI = s.KI := rfl
@[simp] theorem writeKey_RND (j : Fin 8) (v : Word) (s : State) : (writeKey j v s).RND = s.RND := rfl
@[simp] theorem writeKey_turns (j : Fin 8) (v : Word) (s : State) : (writeKey j v s).turns = s.turns := rfl
@[simp] theorem writeKey_reads (j : Fin 8) (v : Word) (s : State) : (writeKey j v s).reads = s.reads := rfl
@[simp] theorem writeKey_draws (j : Fin 8) (v : Word) (s : State) : (writeKey j v s).draws = s.draws := rfl

@[simp] theorem writeDin_KEYCFG_NK (j : Fin 4) (v : Word) (s : State) : (writeDin j v s).KEYCFG_NK = s.KEYCFG_NK := rfl
@[simp] theorem writeDin_KEYCFG_KEYLEN (j : Fin 4) (v : Word) (s : State) : (writeDin j v s).KEYCFG_KEYLEN = s.KEYCFG_KEYLEN := rfl
@[simp] theorem writeDin_KEY (j : Fin 4) (v : Word) (s : State) : (writeDin j v s).KEY = s.KEY := rfl
@[simp] theorem writeDin_DIN (j : Fin 4) (v : Word) (s : State) : (writeDin j v s).DIN = s.DIN.set j v := rfl
@[simp] theorem writeDin_DOUT (j : Fin 4) (v : Word) (s : State) : (writeDin j v s).DOUT = s.DOUT := rfl
@[simp] theorem writeDin_RK (j : Fin 4) (v : Word) (s : State) : (writeDin j v s).RK = s.RK := rfl
@[simp] theorem writeDin_phase (j : Fin 4) (v : Word) (s : State) : (writeDin j v s).phase = s.phase := rfl
@[simp] theorem writeDin_DONE (j : Fin 4) (v : Word) (s : State) : (writeDin j v s).DONE = s.DONE := rfl
@[simp] theorem writeDin_KEY_VALID (j : Fin 4) (v : Word) (s : State) : (writeDin j v s).KEY_VALID = s.KEY_VALID := rfl
@[simp] theorem writeDin_ERR (j : Fin 4) (v : Word) (s : State) : (writeDin j v s).ERR = s.ERR := rfl
@[simp] theorem writeDin_SNK (j : Fin 4) (v : Word) (s : State) : (writeDin j v s).SNK = s.SNK := rfl
@[simp] theorem writeDin_SNR (j : Fin 4) (v : Word) (s : State) : (writeDin j v s).SNR = s.SNR := rfl
@[simp] theorem writeDin_ST (j : Fin 4) (v : Word) (s : State) : (writeDin j v s).ST = s.ST := rfl
@[simp] theorem writeDin_KI (j : Fin 4) (v : Word) (s : State) : (writeDin j v s).KI = s.KI := rfl
@[simp] theorem writeDin_RND (j : Fin 4) (v : Word) (s : State) : (writeDin j v s).RND = s.RND := rfl
@[simp] theorem writeDin_turns (j : Fin 4) (v : Word) (s : State) : (writeDin j v s).turns = s.turns := rfl
@[simp] theorem writeDin_reads (j : Fin 4) (v : Word) (s : State) : (writeDin j v s).reads = s.reads := rfl
@[simp] theorem writeDin_draws (j : Fin 4) (v : Word) (s : State) : (writeDin j v s).draws = s.draws := rfl

@[simp] theorem expandAccepted_KEYCFG_NK (nr : Nat) (s : State) : (expandAccepted nr s).KEYCFG_NK = s.KEYCFG_NK := by unfold expandAccepted; rfl
@[simp] theorem expandAccepted_KEYCFG_KEYLEN (nr : Nat) (s : State) : (expandAccepted nr s).KEYCFG_KEYLEN = s.KEYCFG_KEYLEN := by unfold expandAccepted; rfl
@[simp] theorem expandAccepted_KEY (nr : Nat) (s : State) : (expandAccepted nr s).KEY = s.KEY := by unfold expandAccepted; rfl
@[simp] theorem expandAccepted_DIN (nr : Nat) (s : State) : (expandAccepted nr s).DIN = s.DIN := by unfold expandAccepted; rfl
@[simp] theorem expandAccepted_DOUT (nr : Nat) (s : State) : (expandAccepted nr s).DOUT = s.DOUT := by unfold expandAccepted; rfl
@[simp] theorem expandAccepted_RK (nr : Nat) (s : State) : (expandAccepted nr s).RK = copyKey s.KEY s.KEYCFG_NK.toNat s.RK := by unfold expandAccepted; rfl
@[simp] theorem expandAccepted_phase (nr : Nat) (s : State) : (expandAccepted nr s).phase = .expand := by unfold expandAccepted; rfl
@[simp] theorem expandAccepted_DONE (nr : Nat) (s : State) : (expandAccepted nr s).DONE = s.DONE := by unfold expandAccepted; rfl
@[simp] theorem expandAccepted_KEY_VALID (nr : Nat) (s : State) : (expandAccepted nr s).KEY_VALID = s.KEY_VALID := by unfold expandAccepted; rfl
@[simp] theorem expandAccepted_ERR (nr : Nat) (s : State) : (expandAccepted nr s).ERR = 0#3 := by unfold expandAccepted; rfl
@[simp] theorem expandAccepted_SNK (nr : Nat) (s : State) : (expandAccepted nr s).SNK = s.KEYCFG_NK := by unfold expandAccepted; rfl
@[simp] theorem expandAccepted_SNR (nr : Nat) (s : State) : (expandAccepted nr s).SNR = BitVec.ofNat 4 nr := by unfold expandAccepted; rfl
@[simp] theorem expandAccepted_ST (nr : Nat) (s : State) : (expandAccepted nr s).ST = s.ST := by unfold expandAccepted; rfl
@[simp] theorem expandAccepted_KI (nr : Nat) (s : State) : (expandAccepted nr s).KI = s.KEYCFG_NK.setWidth 6 := by unfold expandAccepted; rfl
@[simp] theorem expandAccepted_RND (nr : Nat) (s : State) : (expandAccepted nr s).RND = s.RND := by unfold expandAccepted; rfl
@[simp] theorem expandAccepted_turns (nr : Nat) (s : State) : (expandAccepted nr s).turns = s.turns := by unfold expandAccepted; rfl
@[simp] theorem expandAccepted_reads (nr : Nat) (s : State) : (expandAccepted nr s).reads = s.reads := by unfold expandAccepted; rfl
@[simp] theorem expandAccepted_draws (nr : Nat) (s : State) : (expandAccepted nr s).draws = s.draws := by unfold expandAccepted; rfl

@[simp] theorem encryptAccepted_KEYCFG_NK (s : State) : (encryptAccepted s).KEYCFG_NK = s.KEYCFG_NK := rfl
@[simp] theorem encryptAccepted_KEYCFG_KEYLEN (s : State) : (encryptAccepted s).KEYCFG_KEYLEN = s.KEYCFG_KEYLEN := rfl
@[simp] theorem encryptAccepted_KEY (s : State) : (encryptAccepted s).KEY = s.KEY := rfl
@[simp] theorem encryptAccepted_DIN (s : State) : (encryptAccepted s).DIN = s.DIN := rfl
@[simp] theorem encryptAccepted_DOUT (s : State) : (encryptAccepted s).DOUT = s.DOUT := rfl
@[simp] theorem encryptAccepted_RK (s : State) : (encryptAccepted s).RK = s.RK := rfl
@[simp] theorem encryptAccepted_phase (s : State) : (encryptAccepted s).phase = .encrypt := rfl
@[simp] theorem encryptAccepted_DONE (s : State) : (encryptAccepted s).DONE = s.DONE := rfl
@[simp] theorem encryptAccepted_KEY_VALID (s : State) : (encryptAccepted s).KEY_VALID = s.KEY_VALID := rfl
@[simp] theorem encryptAccepted_ERR (s : State) : (encryptAccepted s).ERR = 0#3 := rfl
@[simp] theorem encryptAccepted_SNK (s : State) : (encryptAccepted s).SNK = s.SNK := rfl
@[simp] theorem encryptAccepted_SNR (s : State) : (encryptAccepted s).SNR = s.SNR := rfl
@[simp] theorem encryptAccepted_ST (s : State) : (encryptAccepted s).ST = loadState (inputBytes s.DIN) := rfl
@[simp] theorem encryptAccepted_KI (s : State) : (encryptAccepted s).KI = s.KI := rfl
@[simp] theorem encryptAccepted_RND (s : State) : (encryptAccepted s).RND = 0#4 := rfl
@[simp] theorem encryptAccepted_turns (s : State) : (encryptAccepted s).turns = s.turns := rfl
@[simp] theorem encryptAccepted_reads (s : State) : (encryptAccepted s).reads = s.reads := rfl
@[simp] theorem encryptAccepted_draws (s : State) : (encryptAccepted s).draws = s.draws := rfl

@[simp] theorem expandDone_KEYCFG_NK (s : State) : (expandDone s).KEYCFG_NK = s.KEYCFG_NK := rfl
@[simp] theorem expandDone_KEYCFG_KEYLEN (s : State) : (expandDone s).KEYCFG_KEYLEN = s.KEYCFG_KEYLEN := rfl
@[simp] theorem expandDone_KEY (s : State) : (expandDone s).KEY = s.KEY := rfl
@[simp] theorem expandDone_DIN (s : State) : (expandDone s).DIN = s.DIN := rfl
@[simp] theorem expandDone_DOUT (s : State) : (expandDone s).DOUT = s.DOUT := rfl
@[simp] theorem expandDone_RK (s : State) : (expandDone s).RK = s.RK := rfl
@[simp] theorem expandDone_phase (s : State) : (expandDone s).phase = .idle := rfl
@[simp] theorem expandDone_DONE (s : State) : (expandDone s).DONE = true := rfl
@[simp] theorem expandDone_KEY_VALID (s : State) : (expandDone s).KEY_VALID = true := rfl
@[simp] theorem expandDone_ERR (s : State) : (expandDone s).ERR = s.ERR := rfl
@[simp] theorem expandDone_SNK (s : State) : (expandDone s).SNK = s.SNK := rfl
@[simp] theorem expandDone_SNR (s : State) : (expandDone s).SNR = s.SNR := rfl
@[simp] theorem expandDone_ST (s : State) : (expandDone s).ST = s.ST := rfl
@[simp] theorem expandDone_KI (s : State) : (expandDone s).KI = s.KI := rfl
@[simp] theorem expandDone_RND (s : State) : (expandDone s).RND = s.RND := rfl
@[simp] theorem expandDone_turns (s : State) : (expandDone s).turns = s.turns := rfl
@[simp] theorem expandDone_reads (s : State) : (expandDone s).reads = s.reads := rfl
@[simp] theorem expandDone_draws (s : State) : (expandDone s).draws = s.draws := rfl

@[simp] theorem encryptDone_KEYCFG_NK (st : Vector Byte 16) (s : State) : (encryptDone st s).KEYCFG_NK = s.KEYCFG_NK := rfl
@[simp] theorem encryptDone_KEYCFG_KEYLEN (st : Vector Byte 16) (s : State) : (encryptDone st s).KEYCFG_KEYLEN = s.KEYCFG_KEYLEN := rfl
@[simp] theorem encryptDone_KEY (st : Vector Byte 16) (s : State) : (encryptDone st s).KEY = s.KEY := rfl
@[simp] theorem encryptDone_DIN (st : Vector Byte 16) (s : State) : (encryptDone st s).DIN = s.DIN := rfl
@[simp] theorem encryptDone_DOUT (st : Vector Byte 16) (s : State) : (encryptDone st s).DOUT = columnWords st := rfl
@[simp] theorem encryptDone_RK (st : Vector Byte 16) (s : State) : (encryptDone st s).RK = s.RK := rfl
@[simp] theorem encryptDone_phase (st : Vector Byte 16) (s : State) : (encryptDone st s).phase = .idle := rfl
@[simp] theorem encryptDone_DONE (st : Vector Byte 16) (s : State) : (encryptDone st s).DONE = true := rfl
@[simp] theorem encryptDone_KEY_VALID (st : Vector Byte 16) (s : State) : (encryptDone st s).KEY_VALID = s.KEY_VALID := rfl
@[simp] theorem encryptDone_ERR (st : Vector Byte 16) (s : State) : (encryptDone st s).ERR = s.ERR := rfl
@[simp] theorem encryptDone_SNK (st : Vector Byte 16) (s : State) : (encryptDone st s).SNK = s.SNK := rfl
@[simp] theorem encryptDone_SNR (st : Vector Byte 16) (s : State) : (encryptDone st s).SNR = s.SNR := rfl
@[simp] theorem encryptDone_ST (st : Vector Byte 16) (s : State) : (encryptDone st s).ST = st := rfl
@[simp] theorem encryptDone_KI (st : Vector Byte 16) (s : State) : (encryptDone st s).KI = s.KI := rfl
@[simp] theorem encryptDone_RND (st : Vector Byte 16) (s : State) : (encryptDone st s).RND = s.SNR + 1#4 := rfl
@[simp] theorem encryptDone_turns (st : Vector Byte 16) (s : State) : (encryptDone st s).turns = s.turns := rfl
@[simp] theorem encryptDone_reads (st : Vector Byte 16) (s : State) : (encryptDone st s).reads = s.reads := rfl
@[simp] theorem encryptDone_draws (st : Vector Byte 16) (s : State) : (encryptDone st s).draws = s.draws := rfl

@[simp] theorem resetCore_KEYCFG_NK (s : State) : (resetCore s).KEYCFG_NK = 0#4 := rfl
@[simp] theorem resetCore_KEYCFG_KEYLEN (s : State) : (resetCore s).KEYCFG_KEYLEN = 0#6 := rfl
@[simp] theorem resetCore_KEY (s : State) : (resetCore s).KEY = Vector.replicate 8 0#32 := rfl
@[simp] theorem resetCore_DIN (s : State) : (resetCore s).DIN = Vector.replicate 4 0#32 := rfl
@[simp] theorem resetCore_DOUT (s : State) : (resetCore s).DOUT = Vector.replicate 4 0#32 := rfl
@[simp] theorem resetCore_RK (s : State) : (resetCore s).RK = Vector.replicate 60 none := rfl
@[simp] theorem resetCore_phase (s : State) : (resetCore s).phase = .idle := rfl
@[simp] theorem resetCore_DONE (s : State) : (resetCore s).DONE = false := rfl
@[simp] theorem resetCore_KEY_VALID (s : State) : (resetCore s).KEY_VALID = false := rfl
@[simp] theorem resetCore_ERR (s : State) : (resetCore s).ERR = 0#3 := rfl
@[simp] theorem resetCore_SNK (s : State) : (resetCore s).SNK = 0#4 := rfl
@[simp] theorem resetCore_SNR (s : State) : (resetCore s).SNR = 0#4 := rfl
@[simp] theorem resetCore_ST (s : State) : (resetCore s).ST = State.freeST s.draws := rfl
@[simp] theorem resetCore_KI (s : State) : (resetCore s).KI = 0#6 := rfl
@[simp] theorem resetCore_RND (s : State) : (resetCore s).RND = 0#4 := rfl
@[simp] theorem resetCore_turns (s : State) : (resetCore s).turns = s.turns := rfl
@[simp] theorem resetCore_reads (s : State) : (resetCore s).reads = s.reads := rfl
@[simp] theorem resetCore_draws (s : State) : (resetCore s).draws = s.draws + 1 := rfl

end Sys2Proof.Machine
end

