-- ==== Sys2Proof/Laws/Layout.lean ====
section
/-! SUPPORT. The layouts: packing a Word and reading its lanes, the cells of a State, the block mappings, the register
map, the round-key store and the shape of STATUS and KEYCFG. One lemma a function says what it reads. -/

namespace Sys2Proof.Machine

theorem getLsbD_pack (a b c d : Byte) (i : Nat) :
    (pack a b c d).getLsbD i =
      if i < 8 then d.getLsbD i else if i < 16 then c.getLsbD (i - 8)
      else if i < 24 then b.getLsbD (i - 16) else a.getLsbD (i - 24) := by
  have h : (pack a b c d).getLsbD i = BitVec.getLsbD (w := 8 + 8 + 8 + 8) (a ++ b ++ c ++ d) i := rfl
  simp only [h, BitVec.getLsbD_append, Nat.sub_sub]
  split_ifs <;> first | rfl | (exfalso; omega)
theorem lane_getLsbD (k : Fin 4) (v : Word) (i : Nat) (hi : i < 8) :
    (lane k v).getLsbD i = v.getLsbD (8 * (3 - k.val) + i) := by
  simp [lane, hi]

@[simp] theorem lane_zero_pack (a b c d : Byte) : lane 0 (pack a b c d) = a := by
  ext i hi
  rw [← BitVec.getLsbD_eq_getElem, lane_getLsbD _ _ _ hi, getLsbD_pack]
  simp [show ¬ 24 + i < 8 by omega, show ¬ 24 + i < 16 by omega, BitVec.getLsbD_eq_getElem hi]
@[simp] theorem lane_one_pack (a b c d : Byte) : lane 1 (pack a b c d) = b := by
  ext i hi
  rw [← BitVec.getLsbD_eq_getElem, lane_getLsbD _ _ _ hi, getLsbD_pack]
  simp [show ¬ 16 + i < 8 by omega, show 16 + i < 24 by omega, BitVec.getLsbD_eq_getElem hi]
@[simp] theorem lane_two_pack (a b c d : Byte) : lane 2 (pack a b c d) = c := by
  ext i hi
  rw [← BitVec.getLsbD_eq_getElem, lane_getLsbD _ _ _ hi, getLsbD_pack]
  simp [show ¬ 8 + i < 8 by omega, show 8 + i < 16 by omega, BitVec.getLsbD_eq_getElem hi]
@[simp] theorem lane_three_pack (a b c d : Byte) : lane 3 (pack a b c d) = d := by
  ext i hi
  rw [← BitVec.getLsbD_eq_getElem, lane_getLsbD _ _ _ hi, getLsbD_pack]
  simp [hi]
@[simp] theorem pack_lanes (v : Word) : pack (lane 0 v) (lane 1 v) (lane 2 v) (lane 3 v) = v := by
  apply BitVec.eq_of_getLsbD_eq
  intro i hi
  rw [getLsbD_pack]
  split
  · rw [lane_getLsbD _ _ _ (by omega)]; simp
  split
  · rw [lane_getLsbD _ _ _ (by omega)]; congr 1; simp; omega
  split
  · rw [lane_getLsbD _ _ _ (by omega)]; congr 1; simp; omega
  · rw [lane_getLsbD _ _ _ (by omega)]; congr 1; simp; omega

@[simp] theorem cell_ofCells (f : Fin 4 → Fin 4 → Byte) (r c : Fin 4) : cell (ofCells f) r c = f r c := by
  simp only [cell, ofCells, Vector.getElem_ofFn]
  congr 1
  · ext; simp
  · ext; simp
    omega
theorem cells_ext {a b : Vector Byte 16} (h : ∀ r c, cell a r c = cell b r c) : a = b := by
  ext i hi
  have := h ⟨i % 4, by omega⟩ ⟨i / 4, by omega⟩
  simp only [cell, Nat.mod_add_div] at this
  simp [this]
@[simp] theorem storeState_eq (st : Vector Byte 16) : storeState st = st := by
  ext i hi; simp [storeState, cell, Nat.mod_add_div]
@[simp] theorem loadState_eq (x : Vector Byte 16) : loadState x = x := by
  apply cells_ext; intro r c
  rw [loadState, cell_ofCells]
  simp [cell, Nat.add_comm]
theorem packBlock_eq_columnWords (st : Vector Byte 16) : packBlock st = columnWords st := by
  ext j hj
  simp only [packBlock, columnWords, columnWord, cell, Vector.getElem_ofFn]
  simp [Nat.add_comm]
theorem cell_inputBytes (din : Vector Word 4) (r c : Fin 4) : cell (inputBytes din) r c = lane r din[c] := by
  simp only [cell, inputBytes, Vector.getElem_ofFn]
  congr 1
  · ext; simp
  · simp
    congr 1; omega
theorem columnWord_inputBytes (din : Vector Word 4) (j : Fin 4) : columnWord (inputBytes din) j = din[j] := by
  simp [columnWord, cell_inputBytes]
theorem columnWords_inputBytes (din : Vector Word 4) : columnWords (inputBytes din) = din := by
  ext j hj
  simp [columnWords, columnWord_inputBytes din ⟨j, hj⟩]

/-! STATUS and KEYCFG, bit by bit. -/

theorem getLsbD_statusFields (SNK SNR : BitVec 4) (ERR : BitVec 3) (ph : BitVec 2) (k d b : Bool) (i : Nat)
    (hi : i < 28) :
  (SNK ++ 0#4 ++ SNR ++ 0#5 ++ ERR ++ 0#2 ++ ph ++ 0#1 ++ BitVec.ofBool k ++ BitVec.ofBool d ++ BitVec.ofBool b).getLsbD i =
   if i = 0 then b else if i = 1 then d else if i = 2 then k else if i = 3 then false
   else if i < 6 then ph.getLsbD (i - 4) else if i < 8 then false
   else if i < 11 then ERR.getLsbD (i - 8) else if i < 16 then false
   else if i < 20 then SNR.getLsbD (i - 16) else if i < 24 then false
   else SNK.getLsbD (i - 24) := by
  simp only [BitVec.getLsbD_append]
  interval_cases i <;> simp

/-- Bit `i` of STATUS (R26). -/
theorem getLsbD_statusWord (s : State) (i : Nat) : (statusWord s).getLsbD i =
      if i = 0 then busy s else if i = 1 then s.DONE else if i = 2 then s.KEY_VALID else if i = 3 then false
      else if i < 6 then (phaseCode s.phase).getLsbD (i - 4) else if i < 8 then false
      else if i < 11 then s.ERR.getLsbD (i - 8) else if i < 16 then false
      else if i < 20 then s.SNR.getLsbD (i - 16) else if i < 24 then false
      else if i < 28 then s.SNK.getLsbD (i - 24) else false := by
  have h : (statusWord s).getLsbD i = (decide (i < 32) && BitVec.getLsbD (w := 4+4+4+5+3+2+2+1+1+1+1)
    (s.SNK ++ 0#4 ++ s.SNR ++ 0#5 ++ s.ERR ++ 0#2 ++ phaseCode s.phase ++ 0#1 ++
    BitVec.ofBool s.KEY_VALID ++ BitVec.ofBool s.DONE ++ BitVec.ofBool (busy s)) i) := by
      rw [statusWord, BitVec.getLsbD_setWidth]
  rw [h]
  rcases Nat.lt_or_ge i 28 with hi | hi
  · rw [getLsbD_statusFields _ _ _ _ _ _ _ _ hi]
    simp only [show i < 32 by omega, hi, decide_true, Bool.true_and, if_true]
  · rw [BitVec.getLsbD_of_ge _ _ (by omega), Bool.and_false]
    iterate 11 rw [if_neg (by omega)]

theorem getLsbD_keycfgWord (s : State) (i : Nat) : (keycfgWord s).getLsbD i =
   if i < 4 then s.KEYCFG_NK.getLsbD i else if i < 8 then false else s.KEYCFG_KEYLEN.getLsbD (i - 8) := by
  have h : (keycfgWord s).getLsbD i = (decide (i < 32) && BitVec.getLsbD (w := 6+4+4)
    (s.KEYCFG_KEYLEN ++ 0#4 ++ s.KEYCFG_NK) i) := by
      rw [keycfgWord, BitVec.getLsbD_setWidth]
  rw [h]
  simp only [BitVec.getLsbD_append, Nat.sub_sub, BitVec.getLsbD_zero]
  rcases Nat.lt_or_ge i 32 with hi | hi
  · simp only [hi, decide_true, Bool.true_and, show (i - 4 < 4) = (i < 8) by rw [eq_iff_iff]; omega]
  · have : (s.KEYCFG_KEYLEN.getLsbD (i - 8)) = false := BitVec.getLsbD_of_ge _ _ (by omega)
    simp [show ¬ i < 32 by omega, show ¬ i < 4 by omega, this]

theorem field_of_bits (v : Word) (lo n : Nat) (f : BitVec n) (h : ∀ i, i < n → v.getLsbD (lo + i) = f.getLsbD i) :
    v.toNat / 2 ^ lo % 2 ^ n = f.toNat := by
  have : v.extractLsb' lo n = f := by
    apply BitVec.eq_of_getLsbD_eq; intro i hi
    simp [hi, h]
  rw [← this]; simp [Nat.shiftRight_eq_div_pow]


/-! The register map (R52). -/

theorem regAt_key (a : Offset) (j : Fin 8) (h : a.toNat = 0x010 + 4 * j.val) : regAt a = .key j := by
  have := j.isLt
  simp only [regAt, h]
  rw [if_neg (by omega), if_neg (by omega), if_neg (by omega), dif_pos (by omega)]
  congr 1; ext; simp
theorem regAt_din (a : Offset) (j : Fin 4) (h : a.toNat = 0x030 + 4 * j.val) : regAt a = .din j := by
  have := j.isLt
  simp only [regAt, h]
  rw [if_neg (by omega), if_neg (by omega), if_neg (by omega), dif_neg (by omega), dif_pos (by omega)]
  congr 1; ext; simp
theorem regAt_dout (a : Offset) (j : Fin 4) (h : a.toNat = 0x040 + 4 * j.val) : regAt a = .dout j := by
  have := j.isLt
  simp only [regAt, h]
  rw [if_neg (by omega), if_neg (by omega), if_neg (by omega), dif_neg (by omega), dif_neg (by omega), dif_pos (by omega)]
  congr 1; ext; simp
theorem regAt_rk (a : Offset) (j : Fin 60) (h : a.toNat = 0x100 + 4 * j.val) : regAt a = .rk j := by
  have := j.isLt
  simp only [regAt, h]
  rw [if_neg (by omega), if_neg (by omega), if_neg (by omega), dif_neg (by omega), dif_neg (by omega), dif_neg (by omega), dif_pos (by omega)]
  congr 1; ext; simp
theorem regAt_reserved (a : Offset) (h4 : a.toNat % 4 = 0) (h : a.toNat = 0x00C ∨ (0x050 ≤ a.toNat ∧ a.toNat ≤ 0x0FC) ∨ 0x1F0 ≤ a.toNat) : regAt a = .reserved := by
  simp only [regAt]
  rw [if_neg (by omega), if_neg (by omega), if_neg (by omega), dif_neg (by omega), dif_neg (by omega), dif_neg (by omega), dif_neg (by omega)]
/-- every aligned offset -/
theorem regAt_cases (a : Offset) (h4 : a.toNat % 4 = 0) :
  (a.toNat = 0 ∧ regAt a = .ctrl) ∨ (a.toNat = 4 ∧ regAt a = .status) ∨ (a.toNat = 8 ∧ regAt a = .keycfg) ∨
  (∃ j : Fin 8, a.toNat = 0x010 + 4 * j.val ∧ regAt a = .key j) ∨ (∃ j : Fin 4, a.toNat = 0x030 + 4 * j.val ∧ regAt a = .din j) ∨
  (∃ j : Fin 4, a.toNat = 0x040 + 4 * j.val ∧ regAt a = .dout j) ∨ (∃ j : Fin 60, a.toNat = 0x100 + 4 * j.val ∧ regAt a = .rk j) ∨
  ((a.toNat = 0x00C ∨ (0x050 ≤ a.toNat ∧ a.toNat ≤ 0x0FC) ∨ 0x1F0 ≤ a.toNat) ∧ regAt a = .reserved) := by
  by_cases h0 : a.toNat = 0
  · left; exact ⟨h0, by simp [regAt, h0]⟩
  by_cases h1 : a.toNat = 4
  · right; left; exact ⟨h1, by simp [regAt, h1]⟩
  by_cases h2 : a.toNat = 8
  · right; right; left; exact ⟨h2, by simp [regAt, h2]⟩
  by_cases h3 : 0x010 ≤ a.toNat ∧ a.toNat < 0x030
  · have e : a.toNat = 0x010 + 4 * ((a.toNat - 0x10) / 4) := by omega
    exact .inr (.inr (.inr (.inl ⟨⟨(a.toNat - 0x10) / 4, by omega⟩, e, regAt_key _ _ e⟩)))
  by_cases h5 : 0x030 ≤ a.toNat ∧ a.toNat < 0x040
  · have e : a.toNat = 0x030 + 4 * ((a.toNat - 0x30) / 4) := by omega
    exact .inr (.inr (.inr (.inr (.inl ⟨⟨(a.toNat - 0x30) / 4, by omega⟩, e, regAt_din _ _ e⟩))))
  by_cases h6 : 0x040 ≤ a.toNat ∧ a.toNat < 0x050
  · have e : a.toNat = 0x040 + 4 * ((a.toNat - 0x40) / 4) := by omega
    exact .inr (.inr (.inr (.inr (.inr (.inl ⟨⟨(a.toNat - 0x40) / 4, by omega⟩, e, regAt_dout _ _ e⟩)))))
  by_cases h7 : 0x100 ≤ a.toNat ∧ a.toNat < 0x1F0
  · have e : a.toNat = 0x100 + 4 * ((a.toNat - 0x100) / 4) := by omega
    exact .inr (.inr (.inr (.inr (.inr (.inr (.inl ⟨⟨(a.toNat - 0x100) / 4, by omega⟩, e, regAt_rk _ _ e⟩))))))
  · have h : a.toNat = 0x00C ∨ (0x050 ≤ a.toNat ∧ a.toNat ≤ 0x0FC) ∨ 0x1F0 ≤ a.toNat := by omega
    exact .inr (.inr (.inr (.inr (.inr (.inr (.inr ⟨h, regAt_reserved _ h4 h⟩))))))

end Sys2Proof.Machine
end

