-- ==== Sys2Proof/Laws/Encoding.lean ====
section
/-! SUPPORT. The fields of the encodings: what alignment, the CMD field, a transaction word and the opcode table's masks
say of bits. -/

namespace Sys2Proof

theorem aligned_iff (addr : Offset) : aligned addr = true ↔ addr.toNat % 4 = 0 := by
  simp only [aligned, beq_iff_eq]
  rw [← BitVec.toNat_inj]
  simp

theorem cmdOf_eq (v : Word) :
    cmdOf v = match v.toNat % 4 with
      | 0 => .nop
      | 1 => .expandKey
      | 2 => .encryptBlock
      | _ => .reserved := by
  have field : ∀ k : Nat, k < 4 → (v.extractLsb' 0 2 = BitVec.ofNat 2 k ↔ v.toNat % 4 = k) := by
    intro k hk
    rw [← BitVec.toNat_inj]
    simp; omega
  have h0 := field 0 (by omega)
  have h1 := field 1 (by omega)
  have h2 := field 2 (by omega)
  have hk : v.toNat % 4 < 4 := by omega
  simp only [cmdOf, h0, h1, h2]
  generalize v.toNat % 4 = k at *
  interval_cases k <;> rfl

theorem getLsbD_busWord (write : Bool) (addr : Offset) (data : Word) (i : Nat) :
    (busWord write addr data).getLsbD i =
      if i < 32 then data.getLsbD i else if i < 44 then addr.getLsbD (i - 32)
      else (i == 44 && write) := by
  have h : (busWord write addr data).getLsbD i =
      BitVec.getLsbD (w := 1 + 12 + 32) (BitVec.ofBool write ++ addr ++ data) i := rfl
  simp only [h, BitVec.getLsbD_append, Nat.sub_sub]
  split_ifs <;> first | rfl | (exfalso; omega) | skip
  rw [BitVec.getLsbD_ofBool]
  congr 1
  rw [Bool.eq_iff_iff]; simp; omega

@[simp] theorem busAddr_busWord (write : Bool) (addr : Offset) (data : Word) :
    busAddr (busWord write addr data) = addr := by
  apply BitVec.eq_of_getLsbD_eq
  intro i hi
  simp [busAddr, getLsbD_busWord, hi, show 32 + i < 44 by omega]

@[simp] theorem busData_busWord (write : Bool) (addr : Offset) (data : Word) :
    busData (busWord write addr data) = data := by
  apply BitVec.eq_of_getLsbD_eq
  intro i hi
  simp [busData, getLsbD_busWord, hi]

@[simp] theorem busWrite_busWord (write : Bool) (addr : Offset) (data : Word) :
    busWrite (busWord write addr data) = write := by
  rw [busWrite, getLsbD_busWord]
  simp

theorem busAddr_eq (w : BitVec 45) : busAddr w = BitVec.ofNat 12 (w.toNat / 2 ^ 32) := by
  rw [← BitVec.toNat_inj]; simp [busAddr, Nat.shiftRight_eq_div_pow]

theorem busData_eq (w : BitVec 45) : busData w = BitVec.ofNat 32 w.toNat := by
  rw [← BitVec.toNat_inj]; simp [busData]

theorem aligned_busAddr_iff (w : BitVec 45) : aligned (busAddr w) = true ↔ w.toNat / 2 ^ 32 % 4 = 0 := by
  rw [aligned_iff, busAddr_eq]
  simp

end Sys2Proof
end

