-- ==== Sys2Proof/Laws/Exec.lean ====
section
/-! SUPPORT. What each shared operation and each meaning can answer, said once: a proof about exec or step cites these and
does not unfold them again. -/

namespace Sys2Proof.Machine

theorem busy_eq_false (s : State) : busy s = false ↔ s.phase = .idle := by
  cases h : s.phase <;> simp [busy, h]

theorem busy_eq_true (s : State) : busy s = true ↔ s.phase ≠ .idle := by
  cases h : s.phase <;> simp [busy, h]

theorem whenIdle_idle (f : State → State) (s : State) (h : s.phase = .idle) : whenIdle f s = f s := by
  simp [whenIdle, (busy_eq_false s).2 h]

theorem whenIdle_busy (f : State → State) (s : State) (h : s.phase ≠ .idle) :
    whenIdle f s = { s with ERR := 5#3 } := by
  simp [whenIdle, (busy_eq_true s).2 h, raise, ErrCode.code]

theorem nrOf_eq_some (n nr : Nat) :
    nrOf n = some nr ↔ (n = 4 ∧ nr = 10) ∨ (n = 6 ∧ nr = 12) ∨ (n = 8 ∧ nr = 14) := by
  unfold nrOf; split <;> simp_all <;> omega

/-- EXPAND_KEY while idle is rejected for its class, rejected for its length, or accepted (R177). -/
theorem expandKeyIdle_cases (s : State) :
    (nrOf s.KEYCFG_NK.toNat = none ∧
      expandKeyIdle s = { s with DONE := false, KEY_VALID := false, ERR := 1#3 }) ∨
    (∃ nr, nrOf s.KEYCFG_NK.toNat = some nr ∧ s.KEYCFG_KEYLEN.toNat ≠ 4 * s.KEYCFG_NK.toNat ∧
      expandKeyIdle s = { s with DONE := false, KEY_VALID := false, ERR := 2#3 }) ∨
    (∃ nr, nrOf s.KEYCFG_NK.toNat = some nr ∧ s.KEYCFG_KEYLEN.toNat = 4 * s.KEYCFG_NK.toNat ∧
      expandKeyIdle s = expandAccepted nr { s with DONE := false, KEY_VALID := false }) := by
  cases h : nrOf s.KEYCFG_NK.toNat with
  | none => simp [expandKeyIdle, h, raise, ErrCode.code]
  | some nr =>
    by_cases hl : s.KEYCFG_KEYLEN.toNat = 4 * s.KEYCFG_NK.toNat
    · simp [expandKeyIdle, h, hl]
    · simp [expandKeyIdle, h, hl, raise, ErrCode.code]

/-- ENCRYPT_BLOCK while idle is rejected without a schedule, or accepted (R178). -/
theorem encryptBlockIdle_cases (s : State) :
    (s.KEY_VALID = false ∧ encryptBlockIdle s = { s with DONE := false, ERR := 4#3 }) ∨
    (s.KEY_VALID = true ∧ encryptBlockIdle s = encryptAccepted { s with DONE := false }) := by
  cases h : s.KEY_VALID <;> simp [encryptBlockIdle, h, raise, ErrCode.code]

theorem exec_command {i : Instr} {c : Cmd} (h : commandOf i = some c) (s : State) :
    exec i s = .next (whenIdle (commandIdle c) s) := by
  cases i with
  | wr a v =>
    by_cases ha : a = 0#12
    · subst ha
      simp only [commandOf, if_true, Option.some.injEq] at h
      subst h
      simp only [exec, execWr, show aligned 0#12 = true by decide, if_true, show regAt 0#12 = .ctrl by decide]
      rfl
    · simp [commandOf, ha] at h
  | _ => first
    | (simp only [commandOf, Option.some.injEq] at h; subst h; rfl)
    | simp [commandOf] at h

theorem exec_wr (s : State) (a : Offset) (v : Word) (h : a.toNat % 4 = 0) :
    exec (.wr a v) s = .next (writeReg (regAt a) v s) := by
  simp [exec, execWr, (aligned_iff a).2 h]

/-- A write that issues no command changes KEYCFG, a KEY or a DIN while idle, ERR while busy, or nothing (R171). -/
theorem exec_wr_next {s t : State} {a : Offset} {v : Word} (h : exec (.wr a v) s = .next t)
    (hc : commandOf (.wr a v) = none) :
    t = s ∨ (s.phase ≠ .idle ∧ t = { s with ERR := 5#3 }) ∨
    (s.phase = .idle ∧ a.toNat = 0x008 ∧ t = writeKeycfg v s) ∨
    (s.phase = .idle ∧ ∃ j : Fin 8, a.toNat = 0x010 + 4 * j.val ∧ t = writeKey j v s) ∨
    (s.phase = .idle ∧ ∃ j : Fin 4, a.toNat = 0x030 + 4 * j.val ∧ t = writeDin j v s) := by
  simp only [exec, execWr] at h
  split at h
  · rename_i al
    cases h
    have h0 : a.toNat ≠ 0 := by
      intro h0
      have : a = 0#12 := BitVec.eq_of_toNat_eq h0
      simp [commandOf, this] at hc
    by_cases hp : s.phase = .idle
    · rcases regAt_cases a ((aligned_iff a).1 al) with g | g | g | ⟨j, g⟩ | ⟨j, g⟩ | ⟨j, g⟩ | ⟨j, g⟩ | g
      · exact absurd g.1 h0
      · rw [g.2]; exact .inl rfl
      · rw [g.2]; exact .inr (.inr (.inl ⟨hp, g.1, whenIdle_idle _ _ hp⟩))
      · rw [g.2]; exact .inr (.inr (.inr (.inl ⟨hp, j, g.1, whenIdle_idle _ _ hp⟩)))
      · rw [g.2]; exact .inr (.inr (.inr (.inr ⟨hp, j, g.1, whenIdle_idle _ _ hp⟩)))
      · rw [g.2]; exact .inl rfl
      · rw [g.2]; exact .inl rfl
      · rw [g.2]; exact .inl rfl
    · cases hr : regAt a <;> simp only [writeReg] <;>
        first
        | exact .inl trivial
        | exact .inr (.inl ⟨hp, whenIdle_busy _ _ hp⟩)
  · cases h

theorem exec_rd_next {s t : State} {a : Offset} (h : exec (.rd a) s = .next t) :
    aligned a = true ∧ ((∃ v, readAt a s = some v ∧ t = returnRead v s) ∨ (readAt a s = none ∧ t = returnAny s)) := by
  simp only [exec, execRd] at h
  split at h
  · rename_i al
    refine ⟨al, ?_⟩
    split at h
    · rename_i v hv; cases h; exact .inl ⟨v, hv, rfl⟩
    · rename_i hv; cases h; exact .inr ⟨hv, rfl⟩
  · cases h

theorem microStep_next {sel : Bool} {r : Option State} {t : State} :
    microStep sel r = .next t ↔ sel = true ∧ r = some t := by
  cases sel <;> cases r <;> simp [microStep]

theorem kexpOperands_eq_some {s : State} {prev back : Word} :
    kexpOperands s = some (prev, back) ↔
      nrOf s.SNK.toNat = some s.SNR.toNat ∧ s.SNK.toNat ≤ s.KI.toNat ∧ s.KI.toNat < 4 * (s.SNR.toNat + 1) ∧
      rkWord s (s.KI.toNat - 1) = some prev ∧ rkWord s (s.KI.toNat - s.SNK.toNat) = some back := by
  unfold kexpOperands
  split
  · rename_i h
    cases h1 : rkWord s (s.KI.toNat - 1) <;> cases h2 : rkWord s (s.KI.toNat - s.SNK.toNat) <;> simp [h]
  · rename_i h
    simp; intros; exact absurd ⟨‹_›, ‹_›, ‹_›⟩ h

theorem roundKey_eq_some {s : State} {r : Nat} {k : Vector Word 4} :
    roundKey s r = some k ↔ ∀ c : Fin 4, rkWord s (4 * r + c.val) = some k[c] := by
  unfold roundKey
  constructor
  · intro h
    split at h
    · rename_i a b c d h0 h1 h2 h3
      cases h
      intro c; fin_cases c
      exacts [h0, h1, h2, h3]
    · cases h
  · intro h
    have h0 := h 0
    have h1 := h 1
    have h2 := h 2
    have h3 := h 3
    simp at h0 h1 h2 h3
    simp only [h0, h1, h2, h3]
    congr 1
    ext i hi
    interval_cases i <;> rfl

/-- KEXP_STEP goes on exactly where its row selects it and its operands are within R37 (R181). -/
theorem exec_kexpStep_next {s t : State} :
    exec .kexpStep s = .next t ↔ s.phase = .expand ∧ ∃ prev back, kexpOperands s = some (prev, back) ∧
      t = storeScheduleWord (keyStepOn prev back s.KI.toNat s.SNK.toNat) s := by
  simp only [exec, execKexpStep, microStep_next, beq_iff_eq, Option.map_eq_some_iff, Prod.exists, eq_comm (b := t)]

theorem exec_encInitial_next {s t : State} :
    exec .encInitial s = .next t ↔ s.phase = .encrypt ∧ s.RND = 0#4 ∧ ∃ k, roundKey s 0 = some k ∧
      t = { s with ST := addRoundKey s.ST k, RND := 1#4 } := by
  simp only [exec, execEncInitial, microStep_next, Bool.and_eq_true, beq_iff_eq, Option.map_eq_some_iff,
    eq_comm (b := t), and_assoc]

theorem exec_encRound_next {s t : State} :
    exec .encRound s = .next t ↔ s.phase = .encrypt ∧ (1 ≤ s.RND.toNat ∧ s.RND.toNat < s.SNR.toNat) ∧
      ∃ k, roundKey s s.RND.toNat = some k ∧ t = { s with ST := mainRound s.ST k, RND := s.RND + 1#4 } := by
  simp only [exec, execEncRound, microStep_next, Bool.and_eq_true, beq_iff_eq, decide_eq_true_eq,
    Option.map_eq_some_iff, eq_comm (b := t), and_assoc]

theorem exec_encFinal_next {s t : State} :
    exec .encFinal s = .next t ↔ s.phase = .encrypt ∧ s.RND = s.SNR ∧ ∃ k, roundKey s s.SNR.toNat = some k ∧
      t = encryptDone (finalRound s.ST k) s := by
  simp only [exec, execEncFinal, microStep_next, Bool.and_eq_true, beq_iff_eq, Option.map_eq_some_iff,
    eq_comm (b := t), and_assoc]

/-- What exec can do, for every operation at once. -/
theorem exec_next_cases {i : Instr} {s t : State} (h : exec i s = .next t) :
    (∃ c, commandOf i = some c ∧ t = whenIdle (commandIdle c) s) ∨
    (∃ a v, i = .wr a v ∧ commandOf i = none) ∨
    (∃ a, i = .rd a ∧ t = { s with reads := t.reads, draws := t.draws }) ∨
    (i = .kexpStep ∧ s.phase = .expand ∧ ∃ prev back, kexpOperands s = some (prev, back) ∧
      t = storeScheduleWord (keyStepOn prev back s.KI.toNat s.SNK.toNat) s) ∨
    (i = .encInitial ∧ s.phase = .encrypt ∧ ∃ st rnd, t = { s with ST := st, RND := rnd }) ∨
    (i = .encRound ∧ s.phase = .encrypt ∧ ∃ st rnd, t = { s with ST := st, RND := rnd }) ∨
    (i = .encFinal ∧ s.phase = .encrypt ∧ ∃ st, t = encryptDone st s) ∨
    (i = .reset ∧ t = resetCore s) := by
  cases hc : commandOf i with
  | some c => rw [exec_command hc] at h; cases h; exact .inl ⟨c, rfl, rfl⟩
  | none =>
    cases i with
    | wr a v => exact .inr (.inl ⟨a, v, rfl, rfl⟩)
    | rd a =>
      obtain ⟨-, ⟨v, -, rfl⟩ | ⟨-, rfl⟩⟩ := exec_rd_next h <;> exact .inr (.inr (.inl ⟨a, rfl, rfl⟩))
    | kexpStep => exact .inr (.inr (.inr (.inl ⟨rfl, exec_kexpStep_next.1 h⟩)))
    | encInitial =>
      obtain ⟨hp, -, k, -, rfl⟩ := exec_encInitial_next.1 h
      exact .inr (.inr (.inr (.inr (.inl ⟨rfl, hp, _, _, rfl⟩))))
    | encRound =>
      obtain ⟨hp, -, k, -, rfl⟩ := exec_encRound_next.1 h
      exact .inr (.inr (.inr (.inr (.inr (.inl ⟨rfl, hp, _, _, rfl⟩)))))
    | encFinal =>
      obtain ⟨hp, -, k, -, rfl⟩ := exec_encFinal_next.1 h
      exact .inr (.inr (.inr (.inr (.inr (.inr (.inl ⟨rfl, hp, _, rfl⟩))))))
    | reset => cases h; exact .inr (.inr (.inr (.inr (.inr (.inr (.inr ⟨rfl, rfl⟩))))))
    | _ => simp [commandOf] at hc

/-- The last expansion step also ends the command (R181). -/
theorem storeScheduleWord_cases (w : Word) (s : State) :
    (s.KI.toNat + 1 = 4 * (s.SNR.toNat + 1) ∧ storeScheduleWord w s =
      { s with RK := s.RK.setIfInBounds s.KI.toNat (some w), KI := s.KI + 1#6, phase := .idle, KEY_VALID := true,
               DONE := true }) ∨
    (s.KI.toNat + 1 ≠ 4 * (s.SNR.toNat + 1) ∧ storeScheduleWord w s =
      { s with RK := s.RK.setIfInBounds s.KI.toNat (some w), KI := s.KI + 1#6 }) := by
  by_cases h : s.KI.toNat + 1 = 4 * (s.SNR.toNat + 1)
  · left; exact ⟨h, by simp [storeScheduleWord, h, expandDone]⟩
  · right; exact ⟨h, by simp [storeScheduleWord, h]⟩

/-- A write that issues no command leaves all but the inputs and ERR alone (R171). -/
theorem wr_frame {s t : State} {a : Offset} {v : Word} (h : exec (.wr a v) s = .next t)
    (hc : commandOf (.wr a v) = none) :
    t = { s with KEYCFG_NK := t.KEYCFG_NK, KEYCFG_KEYLEN := t.KEYCFG_KEYLEN, KEY := t.KEY, DIN := t.DIN,
                 ERR := t.ERR } ∧ (t.ERR = s.ERR ∨ t.ERR = 5#3) := by
  rcases exec_wr_next h hc with rfl | ⟨_, rfl⟩ | ⟨_, _, rfl⟩ | ⟨_, _, _, rfl⟩ | ⟨_, _, _, rfl⟩ <;> simp <;> rfl

/-- What a command does, whatever the state: dropped, NOP, rejected or accepted (R171, R176–R179). -/
theorem command_cases (c : Cmd) (s : State) :
    (s.phase ≠ .idle ∧ whenIdle (commandIdle c) s = { s with ERR := 5#3 }) ∨
    (s.phase = .idle ∧ c = .nop ∧ whenIdle (commandIdle c) s = s) ∨
    (s.phase = .idle ∧ c = .expandKey ∧ ∃ e, (e = 1#3 ∨ e = 2#3) ∧
      whenIdle (commandIdle c) s = { s with DONE := false, KEY_VALID := false, ERR := e }) ∨
    (s.phase = .idle ∧ c = .expandKey ∧ ∃ nr, nrOf s.KEYCFG_NK.toNat = some nr ∧
      s.KEYCFG_KEYLEN.toNat = 4 * s.KEYCFG_NK.toNat ∧
      whenIdle (commandIdle c) s = expandAccepted nr { s with DONE := false, KEY_VALID := false }) ∨
    (s.phase = .idle ∧ c = .encryptBlock ∧ s.KEY_VALID = false ∧
      whenIdle (commandIdle c) s = { s with DONE := false, ERR := 4#3 }) ∨
    (s.phase = .idle ∧ c = .encryptBlock ∧ s.KEY_VALID = true ∧
      whenIdle (commandIdle c) s = encryptAccepted { s with DONE := false }) ∨
    (s.phase = .idle ∧ c = .reserved ∧ whenIdle (commandIdle c) s = { s with DONE := false, ERR := 3#3 }) := by
  by_cases hp : s.phase = .idle
  · rw [whenIdle_idle _ _ hp]
    cases c
    · simp [hp, commandIdle, nopIdle]
    · rcases expandKeyIdle_cases s with ⟨h1, h2⟩ | ⟨nr, h1, h3, h2⟩ | ⟨nr, h1, h3, h2⟩
      · exact .inr (.inr (.inl ⟨hp, rfl, _, .inl rfl, h2⟩))
      · exact .inr (.inr (.inl ⟨hp, rfl, _, .inr rfl, h2⟩))
      · exact .inr (.inr (.inr (.inl ⟨hp, rfl, nr, h1, h3, h2⟩)))
    · rcases encryptBlockIdle_cases s with ⟨h1, h2⟩ | ⟨h1, h2⟩
      · exact .inr (.inr (.inr (.inr (.inl ⟨hp, rfl, h1, h2⟩))))
      · exact .inr (.inr (.inr (.inr (.inr (.inl ⟨hp, rfl, h1, h2⟩)))))
    · exact .inr (.inr (.inr (.inr (.inr (.inr ⟨hp, rfl, rfl⟩)))))
  · exact .inl ⟨hp, whenIdle_busy _ _ hp⟩

theorem toNat_nrOf {n nr : Nat} (h : nrOf n = some nr) : (BitVec.ofNat 4 nr).toNat = nr := by
  rcases (nrOf_eq_some _ _).1 h with ⟨_, rfl⟩ | ⟨_, rfl⟩ | ⟨_, rfl⟩ <;> rfl

theorem rkWord_of_lt (s : State) (k : Nat) (h : k < 60) : rkWord s k = s.RK[k] := by
  simp [rkWord, h]

theorem rkWord_congr {s u : State} (h : u.RK = s.RK) (k : Nat) : rkWord u k = rkWord s k := by simp [rkWord, h]

theorem roundKey_congr {s u : State} (h : u.RK = s.RK) (r : Nat) : roundKey u r = roundKey s r := by
  simp [roundKey, rkWord_congr h]

theorem cell_shiftRows_subBytes (st : Vector Byte 16) (r c : Fin 4) :
    cell (shiftRows (subBytes st)) r c = sbox (cell st r (c + r)) := by
  simp [shiftRows, subBytes]

/-- A step runs a form's operation or rejects it, in the state with the form's turn taken; an idle core without a turn
keeps its state. -/
theorem step_cases (s : State) :
    (nextForm s = none ∧ step s = .next s) ∨
    (∃ f t i, nextForm s = some (f, t) ∧ decode f = .ok i ∧ step s = exec i t) ∨
    (∃ f t e, nextForm s = some (f, t) ∧ decode f = .error e ∧ step s = rejected e t) := by
  unfold step
  cases h : nextForm s with
  | none => exact .inl ⟨rfl, rfl⟩
  | some p =>
    obtain ⟨f, t⟩ := p
    cases hd : decode f with
    | ok i => exact .inr (.inl ⟨f, t, i, rfl, hd, by simp [hd]⟩)
    | error e => exact .inr (.inr ⟨f, t, e, rfl, hd, by simp [hd]⟩)

theorem run_zero (s : State) : run 0 s = .next s := rfl

theorem run_succ (n : Nat) {s t : State} (h : step s = .next t) : run (n + 1) s = run n t := by
  have h' : core.step s = .next t := h
  refine (Host.Core.run.eq_def core (n + 1) s).trans ?_
  simp only [h']
  rfl

end Sys2Proof.Machine
end

