-- ==== Sys2Proof/Laws/PerInstr.lean ====
section
/-! SUPPORT. Statements made one operation at a time. Family RoundTrip: encoding an operation and decoding the form gives
it back (30_encoding.md R71, R76, R77, R80). -/

namespace Sys2Proof.Laws.RoundTrip

/-- A well-formed operation is decoded from its encoding. -/
def Statement (i : Instr) : Prop := i.wf = true → decode (encode i) = .ok i

theorem nop : Statement .nop := fun _ => by decide

theorem expandKey : Statement .expandKey := fun _ => by decide

theorem encryptBlock : Statement .encryptBlock := fun _ => by decide

theorem cmdReserved : Statement .cmdReserved := fun _ => by decide

theorem wr (addr : Offset) (data : Word) : Statement (.wr addr data) := fun h => by
  have h' : aligned addr = true := h
  simp [decode, encode, decodeBus, h']

theorem rd (addr : Offset) : Statement (.rd addr) := fun h => by
  have h' : aligned addr = true := h
  simp [decode, encode, decodeBus, h']

theorem kexpStep : Statement .kexpStep := fun _ => by decide

theorem encInitial : Statement .encInitial := fun _ => by decide

theorem encRound : Statement .encRound := fun _ => by decide

theorem encFinal : Statement .encFinal := fun _ => by decide

theorem reset : Statement .reset := fun _ => by decide

end Sys2Proof.Laws.RoundTrip
end

