-- ==== Sys2Proof/Laws/Schedule.lean ====
section
/-! SUPPORT. The key schedule and the round-key store, said once: the words of a schedule prefix (41_key_schedule.md
R125), the key's bytes as words (10_state.md R22), what one expansion step adds to a partial schedule, the round keys
of a complete one, and what the invariants of R37 give the engine's steps. -/

namespace Sys2Proof.Machine

theorem schedulePrefix_length (key : Nat → Byte) (nk n : Nat) : (schedulePrefix key nk n).length = n := by
  induction n with
  | zero => rfl
  | succ n ih => simp [schedulePrefix, ih]

/-- A longer prefix begins with the shorter one. -/
theorem schedulePrefix_stable (key : Nat → Byte) (nk : Nat) {i n m : Nat} (h : i < n) (hm : n ≤ m) :
    (schedulePrefix key nk m)[i]? = (schedulePrefix key nk n)[i]? := by
  induction m with
  | zero => omega
  | succ m ih =>
    by_cases he : n = m + 1
    · rw [he]
    · rw [schedulePrefix, List.getElem?_append_left (by rw [schedulePrefix_length]; omega), ih (by omega)]

/-- The first Nk words are the key's (R125). -/
theorem schedulePrefix_key (key : Nat → Byte) (nk : Nat) {i n : Nat} (h : i < n) (hk : i < nk) :
    (schedulePrefix key nk n)[i]? =
      some (pack (key (4 * i)) (key (4 * i + 1)) (key (4 * i + 2)) (key (4 * i + 3))) := by
  rw [schedulePrefix_stable key nk (Nat.lt_succ_self i) h, schedulePrefix,
    List.getElem?_append_right (by rw [schedulePrefix_length])]
  simp [schedulePrefix_length, hk]

/-- Every later word is KeyStep of the words before it (R125). -/
theorem schedulePrefix_step (key : Nat → Byte) (nk : Nat) {i n : Nat} (h : i < n) (hk : ¬ i < nk) (h0 : 0 < nk) :
    (schedulePrefix key nk n)[i]? = some (keyStep (fun k => (schedulePrefix key nk n).getD k 0#32) i nk) := by
  rw [schedulePrefix_stable key nk (Nat.lt_succ_self i) h, schedulePrefix,
    List.getElem?_append_right (by rw [schedulePrefix_length])]
  have g : ∀ k, k < i → (schedulePrefix key nk i).getD k 0#32 = (schedulePrefix key nk n).getD k 0#32 := by
    intro k hk; simp only [List.getD_eq_getElem?_getD]; rw [schedulePrefix_stable key nk hk h.le]
  simp only [schedulePrefix_length, Nat.sub_self, List.getElem?_cons_zero, hk, if_false, keyStep,
    g (i - 1) (by omega), g (i - nk) (by omega)]

/-- Word `i` of the key is KEYi (R22). -/
theorem keyBytes_word (key : Vector Word 8) (i : Nat) (h : i < 8) :
    pack (keyBytes key (4 * i)) (keyBytes key (4 * i + 1)) (keyBytes key (4 * i + 2)) (keyBytes key (4 * i + 3)) =
      key[i] := by
  have g : ∀ k : Fin 4, keyBytes key (4 * i + k.val) = lane k key[i] := by
    intro k
    have e1 : (4 * i + k.val) % 32 = 4 * i + k.val := by omega
    have e2 : (4 * i + k.val) % 4 = k.val := by omega
    have e3 : (4 * i + k.val) / 4 = i := by omega
    simp only [keyBytes, keyByte, Fin.ofNat, e1, e2, e3]
  have g0 := g 0; have g1 := g 1; have g2 := g 2; have g3 := g 3
  simp at g0 g1 g2 g3
  rw [g0, g1, g2, g3, pack_lanes]

theorem HoldsSchedule.congr {s t : State} {key : Nat → Byte} {n : Nat} (h : HoldsSchedule s key n)
    (h1 : t.RK = s.RK) (h2 : t.SNK = s.SNK) :
    HoldsSchedule t key n := by
  intro i hi; rw [rkWord_congr h1, h2]; exact h i hi

/-- What an accepted EXPAND_KEY leaves: the key's words (R177). -/
theorem holdsSchedule_key {s : State} {key : Vector Word 8} (rk : Vector (Option Word) 60)
    (hs : s.RK = copyKey key s.SNK.toNat rk) (h8 : s.SNK.toNat ≤ 8) :
    HoldsSchedule s (keyBytes key) s.SNK.toNat := by
  intro i hi
  rw [schedulePrefix_key _ _ hi hi, keyBytes_word _ _ (by omega), rkWord_of_lt _ _ (by omega), hs]
  have hi8 : i < 8 := by omega
  simp [copyKey, hi, hi8]

/-- What KEXP_STEP adds: one more word of the same schedule (R181). -/
theorem holdsSchedule_succ {s t : State} {key : Nat → Byte} {prev back : Word} (hs : HoldsSchedule s key s.KI.toNat)
    (ho : kexpOperands s = some (prev, back))
    (h1 : t.RK = s.RK.setIfInBounds s.KI.toNat (some (keyStepOn prev back s.KI.toNat s.SNK.toNat)))
    (h2 : t.SNK = s.SNK) : HoldsSchedule t key (s.KI.toNat + 1) := by
  obtain ⟨hn, hle, hlt, hp, hb⟩ := kexpOperands_eq_some.1 ho
  have hk := (nrOf_eq_some _ _).1 hn
  intro i hi
  rw [h2, rkWord_of_lt _ _ (by omega)]
  by_cases he : i = s.KI.toNat
  · subst he
    rw [schedulePrefix_step _ _ hi (by omega) (by omega)]
    have e1 := hs (s.KI.toNat - 1) (by omega)
    have e2 := hs (s.KI.toNat - s.SNK.toNat) (by omega)
    rw [hp, ← schedulePrefix_stable key _ (m := s.KI.toNat + 1) (by omega) (by omega)] at e1
    rw [hb, ← schedulePrefix_stable key _ (m := s.KI.toNat + 1) (by omega) (by omega)] at e2
    simp [h1, keyStep, List.getD_eq_getElem?_getD, ← e1, ← e2]
  · rw [schedulePrefix_stable key _ (n := s.KI.toNat) (by omega) (by omega), ← hs i (by omega),
      rkWord_of_lt _ _ (by omega)]
    simp [h1, Ne.symm he]

theorem roundKey_holds {s : State} {r : Nat} (h : ∀ c : Fin 4, (rkWord s (4 * r + c.val)).isSome = true) :
    roundKey s r = some (roundKeyOf (rkValue s) r) := by
  rw [roundKey_eq_some]
  intro c
  obtain ⟨w, hw⟩ := Option.isSome_iff_exists.1 (h c)
  have : rkValue s (4 * r + c.val) = w := by simp [rkValue, hw]
  rw [hw, ← this]
  fin_cases c <;> simp [roundKeyOf]

theorem roundKey_value {s : State} {r : Nat} {k} (h : roundKey s r = some k) : k = roundKeyOf (rkValue s) r := by
  have := roundKey_holds (s := s) (r := r) (fun c => by rw [roundKey_eq_some.1 h c]; rfl)
  rw [h] at this; exact Option.some.inj this

theorem HoldsSchedule.isSome {s : State} {key n} (h : HoldsSchedule s key n) {i} (hi : i < n) :
    (rkWord s i).isSome = true := by
  rw [h i hi]; simp [schedulePrefix_length, hi]

theorem rkValue_congr {s u : State} (h : u.RK = s.RK) : rkValue u = rkValue s := by
  funext k; simp [rkValue, rkWord_congr h]

/-- Under the invariants every round key a running encryption reads is defined. -/
theorem State.Inv.roundKey {h : Latched} {s : State} (hi : s.Inv h) (hp : s.phase = .encrypt) {r : Nat}
    (hr : r ≤ s.SNR.toNat) :
    Machine.roundKey s r = some (roundKeyOf (rkValue s) r) :=
  roundKey_holds fun c => (hi.schedule (hi.encrypt_keyValid hp)).isSome (by omega)

/-- Under the invariants both words a running expansion reads are defined. -/
theorem State.Inv.kexpOperands {h : Latched} {s : State} (hi : s.Inv h) (hp : s.phase = .expand) :
    ∃ prev back, Machine.kexpOperands s = some (prev, back) := by
  obtain ⟨_, h1, h2, h3, _⟩ := hi.expanding hp
  have hn := hi.schedule_class (.inr hp)
  have hk := (nrOf_eq_some _ _).1 hn
  obtain ⟨p, hp'⟩ := Option.isSome_iff_exists.1 (h3.isSome (i := s.KI.toNat - 1) (by omega))
  obtain ⟨b, hb⟩ := Option.isSome_iff_exists.1 (h3.isSome (i := s.KI.toNat - s.SNK.toNat) (by omega))
  exact ⟨p, b, kexpOperands_eq_some.2 ⟨hn, h1, h2, hp', hb⟩⟩

/-- The invariants speak of the core's registers alone: a step that leaves these as they are keeps them. -/
theorem State.Inv.congr {h : Latched} {s t : State} (hi : s.Inv h) (h1 : t.phase = s.phase)
    (h2 : t.KEY_VALID = s.KEY_VALID) (h3 : t.SNK = s.SNK) (h4 : t.SNR = s.SNR) (h5 : t.KI = s.KI) (h6 : t.RK = s.RK)
    (h7 : t.RND = s.RND) (h8 : t.ST = s.ST)
    (h9 : t.DONE = s.DONE) (h10 : t.DOUT = s.DOUT) (h11 : t.ERR.toNat ≤ 5) : t.Inv h where
  encrypt_keyValid := by rw [h1, h2]; exact hi.encrypt_keyValid
  schedule_class := by rw [h1, h2, h3, h4]; exact hi.schedule_class
  expanding := by
    rw [h1, h2, h3, h4, h5]; intro hp
    obtain ⟨a, b, c, d, e⟩ := hi.expanding hp
    exact ⟨a, b, c, d.congr h6 h3, e⟩
  schedule := by rw [h2, h4]; intro hp; exact (hi.schedule hp).congr h6 h3
  encrypting := by rw [h1, h7, h4, h8, rkValue_congr h6]; exact hi.encrypting
  encrypted := by rw [h1, h9, h10, h4, rkValue_congr h6]; exact hi.encrypted
  errCode := h11

end Sys2Proof.Machine
end

