-- ==== Sys2Proof/Tests/Slice0.lean ====
section
/-! SUPPORT. The model's own tests. Expected values are those of spec/95_test_vectors.md (named L1.x, L2.x and P1–P4
there) or written out from a rule, never the model's own answers. The last part shows, for every obligation with hypotheses,
concrete states and operands that meet them. -/

namespace Sys2Proof.Tests

open Sys2Proof.Machine

set_option Elab.async false

/-! ## Well-formedness: an offset that is not aligned is refused by the check (R57) -/

theorem test_wf_refuses_misaligned_read : (Instr.rd 0x002#12).wf = false := by decide
theorem test_wf_refuses_misaligned_write : (Instr.wr 0x001#12 0x00000000#32).wf = false := by decide
theorem test_wf_accepts_last_offset : (Instr.wr 0xFFC#12 0xFFFFFFFF#32).wf = true := by decide

/-! ## Decoding, bit by bit from R70, R76, R77 -/

theorem test_decode_nop : decode (.ctrl 0b11111111111111111111111111111100#32) = .ok .nop := by decide
theorem test_decode_expandKey : decode (.ctrl 0b11111111111111111111111111111101#32) = .ok .expandKey := by decide
theorem test_decode_encryptBlock : decode (.ctrl 0b00000000000000000000000000000010#32) = .ok .encryptBlock := by decide
theorem test_decode_cmdReserved : decode (.ctrl 0b00000000000000000000000000000011#32) = .ok .cmdReserved := by decide
/-- P1's `WR KEY0, 0x2b7e1516`: W = 1, addr = 0x010, data. -/
theorem test_decode_wr : decode (.bus 32 0b100000001000000101011011111100001010100010110#45) =
    .ok (.wr 0x010#12 0x2b7e1516#32) := by decide
/-- P1's `RD RK43`: W = 0, addr = 0x1ac, data 0. -/
theorem test_decode_rd : decode (.bus 32 0b000011010110000000000000000000000000000000000#45) = .ok (.rd 0x1ac#12) := by decide
theorem test_decode_kexpStep : decode (.engine .expand 0#4 10#4) = .ok .kexpStep := by decide
theorem test_decode_encInitial : decode (.engine .encrypt 0#4 14#4) = .ok .encInitial := by decide
theorem test_decode_encRound_first_last : decode (.engine .encrypt 1#4 12#4) = .ok .encRound ∧
    decode (.engine .encrypt 11#4 12#4) = .ok .encRound := by decide
theorem test_decode_encFinal : decode (.engine .encrypt 12#4 12#4) = .ok .encFinal := by decide
theorem test_decode_reset : decode .signal = .ok .reset := by decide
theorem test_decode_refuses : decode (.bus 32 0x000200000000#45) = .error .misaligned ∧
    decode (.bus 16 0x000400000000#45) = .error .wrongSize ∧ decode (.engine .idle 0#4 0#4) = .error .engineIdle ∧
    decode (.engine .encrypt 15#4 14#4) = .error .noMicroStep := by decide

/-! ## The datapath (L1.2, L1.3, L2.1–L2.11) -/

theorem test_xtime : [0x00#8, 0x02#8, 0x1b#8, 0x47#8, 0x57#8, 0x7f#8, 0x80#8, 0x8d#8, 0xae#8, 0xff#8].map xtime =
    [0x00#8, 0x04#8, 0x36#8, 0x8e#8, 0xae#8, 0xfe#8, 0x1b#8, 0x01#8, 0x47#8, 0xe5#8] := by decide
theorem test_sbox : [0x00#8, 0x01#8, 0x10#8, 0x53#8, 0x80#8, 0x9a#8, 0xc9#8, 0xff#8].map sbox =
    [0x63#8, 0x7c#8, 0xca#8, 0xed#8, 0xcd#8, 0xb8#8, 0xdd#8, 0x16#8] := by decide +kernel
theorem test_subWord : subWord 0xcf4f3c09#32 = 0x8a84eb01#32 ∧ subWord 0x2067fcde#32 = 0xb785b01d#32 := by
  decide +kernel
theorem test_rotWord : rotWord 0x09cf4f3c#32 = 0xcf4f3c09#32 ∧ rotWord 0x00010203#32 = 0x01020300#32 := by decide
/-- L2.6, a row of each branch. -/
theorem test_keyStepOn :
    keyStepOn 0x522c6b7b#32 0x8e73b0f7#32 6 6 = 0xfe0c91f7#32 ∧
    keyStepOn 0x6c827f6b#32 0x62f8ead2#32 10 6 = 0x0e7a95b9#32 ∧
    keyStepOn 0x2067fcde#32 0x1f352c07#32 12 8 = 0xa8b09c1a#32 ∧
    keyStepOn 0xbd10190d#32 0x749c47ab#32 56 8 = 0xfe4890d1#32 ∧
    keyStepOn 0xbc3ce7b5#32 0x821f750a#32 48 6 = 0xe98ba06f#32 ∧
    keyStepOn 0x88542cb1#32 0xabf71588#32 6 4 = 0x23a33939#32 := by decide +kernel

/-- Sixteen bytes from four packed words, written as the spec writes a State. -/
def bytes (a b c d : Word) : Vector Byte 16 := inputBytes #v[a, b, c, d]

theorem test_loadState : (List.range 4).map (fun c => cell (loadState (bytes 0x00010203#32 0x04050607#32 0x08090a0b#32
    0x0c0d0e0f#32)) 0 (Fin.ofNat 4 c)) = [0x00#8, 0x04#8, 0x08#8, 0x0c#8] := by decide
theorem test_subBytes : subBytes (bytes 0x00010203#32 0x04050607#32 0x08090a0b#32 0x0c0d0e0f#32) =
    bytes 0x637c777b#32 0xf26b6fc5#32 0x3001672b#32 0xfed7ab76#32 := by decide +kernel
theorem test_shiftRows : shiftRows (bytes 0x00010203#32 0x04050607#32 0x08090a0b#32 0x0c0d0e0f#32) =
    bytes 0x00050a0f#32 0x04090e03#32 0x080d0207#32 0x0c01060b#32 := by decide +kernel
/-- Four columns of L2.10. -/
theorem test_mixColumns : mixColumns (bytes 0xdb135345#32 0xf20a225c#32 0x2d26314c#32 0x80000000#32) =
    bytes 0x8e4da1bc#32 0x9fdc589d#32 0x4d7ebdf8#32 0x1b80809b#32 := by decide +kernel
theorem test_addRoundKey : addRoundKey (bytes 0x00010203#32 0x04050607#32 0x08090a0b#32 0x0c0d0e0f#32)
    #v[0xffffffff#32, 0xffffffff#32, 0xffffffff#32, 0xffffffff#32] =
    bytes 0xfffefdfc#32 0xfbfaf9f8#32 0xf7f6f5f4#32 0xf3f2f1f0#32 := by decide +kernel

/-! ## Known answers (L1.1, L1.5–L1.9, R239) -/

def key128 : Vector Word 8 := #v[0x2b7e1516#32, 0x28aed2a6#32, 0xabf71588#32, 0x09cf4f3c#32, 0#32, 0#32, 0#32, 0#32]
def key192 : Vector Word 8 :=
  #v[0x8e73b0f7#32, 0xda0e6452#32, 0xc810f32b#32, 0x809079e5#32, 0x62f8ead2#32, 0x522c6b7b#32, 0#32, 0#32]
def key256 : Vector Word 8 :=
  #v[0x603deb10#32, 0x15ca71be#32, 0x2b73aef0#32, 0x857d7781#32, 0x1f352c07#32, 0x3b6108d7#32, 0x2d9810a3#32, 0x0914dff4#32]
def keyC : Vector Word 8 :=
  #v[0x00010203#32, 0x04050607#32, 0x08090a0b#32, 0x0c0d0e0f#32, 0x10111213#32, 0x14151617#32, 0x18191a1b#32, 0x1c1d1e1f#32]

/-- The listing of L1.5. -/
def schedule128 : List Word :=
  [0x2b7e1516#32, 0x28aed2a6#32, 0xabf71588#32, 0x09cf4f3c#32, 0xa0fafe17#32, 0x88542cb1#32, 0x23a33939#32, 0x2a6c7605#32] ++
  [0xf2c295f2#32, 0x7a96b943#32, 0x5935807a#32, 0x7359f67f#32, 0x3d80477d#32, 0x4716fe3e#32, 0x1e237e44#32, 0x6d7a883b#32] ++
  [0xef44a541#32, 0xa8525b7f#32, 0xb671253b#32, 0xdb0bad00#32, 0xd4d1c6f8#32, 0x7c839d87#32, 0xcaf2b8bc#32, 0x11f915bc#32] ++
  [0x6d88a37a#32, 0x110b3efd#32, 0xdbf98641#32, 0xca0093fd#32, 0x4e54f70e#32, 0x5f5fc9f3#32, 0x84a64fb2#32, 0x4ea6dc4f#32] ++
  [0xead27321#32, 0xb58dbad2#32, 0x312bf560#32, 0x7f8d292f#32, 0xac7766f3#32, 0x19fadc21#32, 0x28d12941#32, 0x575c006e#32] ++
  [0xd014f9a8#32, 0xc9ee2589#32, 0xe13f0cc8#32, 0xb6630ca6#32]

theorem test_expansion_128 : schedulePrefix (keyBytes key128) 4 44 = schedule128 := by decide +kernel
theorem test_expansion_192 : (schedulePrefix (keyBytes key192) 6 52).drop 48 =
    [0xe98ba06f#32, 0x448c773c#32, 0x8ecc7204#32, 0x01002202#32] := by decide +kernel
theorem test_expansion_256 : (schedulePrefix (keyBytes key256) 8 60).drop 56 =
    [0xfe4890d1#32, 0xe6188d0b#32, 0x046df344#32, 0x706c631e#32] := by decide +kernel

/-- The words of a finite schedule. -/
def words (l : List Word) (k : Nat) : Word := l.getD k 0#32

theorem test_cipher_sample : cipher (bytes 0x3243f6a8#32 0x885a308d#32 0x313198a2#32 0xe0370734#32) (words schedule128) 10 =
    bytes 0x3925841d#32 0x02dc09fb#32 0xdc118597#32 0x196a0b32#32 := by decide +kernel

/-- The plaintext of L1.7–L1.9. -/
def blockC : Vector Byte 16 := bytes 0x00112233#32 0x44556677#32 0x8899aabb#32 0xccddeeff#32

theorem test_cipher_128 : cipher blockC (words (schedulePrefix (keyBytes keyC) 4 44)) 10 =
    bytes 0x69c4e0d8#32 0x6a7b0430#32 0xd8cdb780#32 0x70b4c55a#32 := by decide +kernel
theorem test_cipher_192 : cipher blockC (words (schedulePrefix (keyBytes keyC) 6 52)) 12 =
    bytes 0xdda97ca4#32 0x864cdfe0#32 0x6eaf70a0#32 0xec0d7191#32 := by decide +kernel
theorem test_cipher_256 : cipher blockC (words (schedulePrefix (keyBytes keyC) 8 60)) 14 =
    bytes 0x8ea2b7ca#32 0x516745bf#32 0xeafc4990#32 0x4b496089#32 := by decide +kernel

/-! ## Small states -/

/-- The store that holds these words, `undefined` above them. -/
def store (l : List Word) : Vector (Option Word) 60 := Vector.ofFn fun i => l[i.val]?

/-- Idle, the inputs of P1 written, nothing expanded. -/
def loaded : State where
  KEYCFG_NK := 4#4
  KEYCFG_KEYLEN := 16#6
  KEY := key128
  DIN := #v[0x3243f6a8#32, 0x885a308d#32, 0x313198a2#32, 0xe0370734#32]
  DOUT := Vector.replicate 4 0#32
  RK := Vector.replicate 60 none
  phase := .idle
  DONE := false
  KEY_VALID := false
  ERR := 0#3
  SNK := 0#4
  SNR := 0#4
  ST := Vector.replicate 16 0#8
  KI := 0#6
  RND := 0#4
  turns := []
  reads := []
  draws := 1

/-- P1 after the expansion was accepted and has reached word `n`. -/
def expanding (n : Nat) : State :=
  { loaded with phase := .expand, SNK := 4#4, SNR := 10#4, KI := BitVec.ofNat 6 n, RK := store (schedule128.take n) }

/-- P1 after the expansion. -/
def expanded : State :=
  { loaded with DONE := true, KEY_VALID := true, SNK := 4#4, SNR := 10#4, KI := 44#6, RK := store schedule128 }

/-- P1 with round `r` the next to apply to `st`. -/
def encrypting (r : BitVec 4) (st : Vector Byte 16) : State :=
  { expanded with phase := .encrypt, DONE := false, RND := r, ST := st }

/-- What STATUS reads after an operation, none where there is no next state. -/
def statusAfter (i : Instr) (s : State) : Option Word :=
  match exec i s with
  | .next t => some (statusWord t)
  | _ => none

/-- One field of the next state. -/
def after {α : Type} (f : State → α) (i : Instr) (s : State) : Option α :=
  match exec i s with
  | .next t => some (f t)
  | _ => none

/-! ## One step of each operation (L1.1, L1.5, L2.14, P1–P4) -/

theorem test_nop_keeps_error : statusAfter .nop { loaded with ERR := 3#3 } = some 0x00000300#32 := by decide +kernel
theorem test_nop_busy : statusAfter .nop (expanding 4) = some 0x040A0511#32 := by decide +kernel
theorem test_expandKey_accepted : statusAfter .expandKey loaded = some 0x040A0011#32 ∧
    after (fun t => t.KI) .expandKey loaded = some 4#6 := by decide +kernel
theorem test_expandKey_class_before_length :
    statusAfter .expandKey { loaded with KEYCFG_NK := 0#4, KEYCFG_KEYLEN := 0#6 } = some 0x00000100#32 ∧
    statusAfter .expandKey { expanded with KEYCFG_KEYLEN := 12#6 } = some 0x040A0200#32 := by decide +kernel
theorem test_encryptBlock_accepted : statusAfter .encryptBlock expanded = some 0x040A0025#32 ∧
    after (fun t => t.ST) .encryptBlock expanded =
      some (bytes 0x3243f6a8#32 0x885a308d#32 0x313198a2#32 0xe0370734#32) := by decide +kernel
theorem test_encryptBlock_noSchedule : statusAfter .encryptBlock loaded = some 0x00000400#32 := by decide +kernel
theorem test_cmdReserved : statusAfter .cmdReserved loaded = some 0x00000300#32 := by decide +kernel
theorem test_cmdReserved_clears_done : statusAfter .cmdReserved expanded = some 0x040A0304#32 := by decide +kernel
theorem test_wr_keycfg : after (readAt 0x008#12) (.wr 0x008#12 0xFFFF1004#32) loaded = some (some 0x00001004#32) := by
  decide +kernel
theorem test_wr_dropped_while_busy :
    statusAfter (.wr 0x030#12 0xdeadbeef#32) (expanding 4) = some 0x040A0511#32 ∧
    after (readAt 0x030#12) (.wr 0x030#12 0xdeadbeef#32) (expanding 4) = some (some 0x3243f6a8#32) := by decide +kernel
theorem test_rd_status : after (fun t => t.reads) (.rd 0x004#12) expanded = some [0x040A0006#32] := by decide +kernel
theorem test_rd_rk43 : after (fun t => t.reads) (.rd 0x1ac#12) expanded = some [0xb6630ca6#32] := by decide +kernel
theorem test_kexpStep_first : after (fun t => (t.RK[4], t.KI)) .kexpStep (expanding 4) = some (some 0xa0fafe17#32, 5#6) := by
  decide +kernel
theorem test_kexpStep_last : after (fun t => t.RK[43]) .kexpStep (expanding 43) = some (some 0xb6630ca6#32) ∧
    statusAfter .kexpStep (expanding 43) = some 0x040A0006#32 := by decide +kernel
theorem test_encInitial : after (fun t => (t.ST, t.RND)) .encInitial
    (encrypting 0#4 (bytes 0x3243f6a8#32 0x885a308d#32 0x313198a2#32 0xe0370734#32)) =
    some (bytes 0x193de3be#32 0xa0f4e22b#32 0x9ac68d2a#32 0xe9f84808#32, 1#4) := by decide +kernel
theorem test_encRound : after (fun t => (t.ST, t.RND)) .encRound
    (encrypting 1#4 (bytes 0x193de3be#32 0xa0f4e22b#32 0x9ac68d2a#32 0xe9f84808#32)) =
    some (bytes 0xa49c7ff2#32 0x689f352b#32 0x6b5bea43#32 0x026a5049#32, 2#4) := by decide +kernel
theorem test_encFinal : after (fun t => t.DOUT) .encFinal
    (encrypting 10#4 (bytes 0xeb40f21e#32 0x592e3884#32 0x8ba113e7#32 0x1bc342d2#32)) =
    some #v[0x3925841d#32, 0x02dc09fb#32, 0xdc118597#32, 0x196a0b32#32] := by decide +kernel
theorem test_encFinal_status : statusAfter .encFinal (encrypting 10#4 (Vector.replicate 16 0#8)) = some 0x040A0006#32 := by
  decide +kernel
theorem test_reset_status : statusAfter .reset (encrypting 3#4 (Vector.replicate 16 0#8)) = some 0x00000000#32 := by decide +kernel
theorem test_reset_schedule : after (fun t => (t.RK[0], t.KEY[0], t.DOUT[3])) .reset expanded = some (none, 0#32, 0#32) := by
  decide +kernel

/-! ## The step -/

theorem test_step_runs_placed_command (s : State) : step (s.withFetchWord 32 0x00000003) = exec .cmdReserved s := rfl
theorem test_step_from_reset : (match step (State.reset.withFetchWord 48 0x100000000002) with
    | .next t => some (statusWord t) | _ => none) = some 0x00000400#32 := by decide +kernel
/-- R59: a turn queued behind a command runs after it. -/
theorem test_turns_in_order : (match run 2 { loaded with turns := [.ctrl 0x00000001#32, .bus 32 0x000400000000#45] } with
    | .next t => t.reads | _ => []) = [0x040A0011#32] := by decide +kernel
/-- R57: a 16-bit access has no step. -/
theorem test_step_refuses_narrow : (match step { loaded with turns := [.bus 16 0x000400000000#45] } with
    | .refused .transactionSize => true | _ => false) = true := by decide +kernel

/-- R245: a reset turn listed after the host's last transaction is no part of the run, so DOUT is observed before it. -/
theorem test_observation_before_late_reset :
    (observation 3 { expanded with DOUT := #v[1#32, 2#32, 3#32, 4#32], turns := [.bus 32 0x000400000000#45, .rst] }).map
      (fun o => (o.reads, o.dout)) = some ([0x040A0006#32], #v[1#32, 2#32, 3#32, 4#32]) := by decide +kernel
/-- R245: the host's last transaction is not the end while the command it issued runs (11 engine steps). -/
theorem test_observation_waits_for_idle : (observation 11 { expanded with turns := [.ctrl 2#32] }).isNone = true ∧
    (observation 12 { expanded with turns := [.ctrl 2#32] }).map (fun o => o.dout) =
      some #v[0x3925841d#32, 0x02dc09fb#32, 0xdc118597#32, 0x196a0b32#32] := by decide +kernel

/-! ## Witnesses: states and operands that meet the hypotheses of each obligation, every clause of it -/

theorem expanding_holds (n : Nat) (hn : n ≤ 44) : HoldsSchedule (expanding n) (keyBytes key128) n := by
  intro i hi
  have e : schedulePrefix (keyBytes key128) 4 n = schedule128.take n := by
    rw [← test_expansion_128]
    apply List.ext_getElem?
    intro j
    rw [List.getElem?_take]
    split
    · rename_i h; exact (schedulePrefix_stable (keyBytes key128) 4 h hn).symm
    · rename_i h; exact List.getElem?_eq_none (by rw [schedulePrefix_length]; omega)
  rw [rkWord_of_lt _ _ (by omega)]
  show (store (schedule128.take n))[i] = (schedulePrefix (keyBytes key128) 4 n)[i]?
  rw [e, store, Vector.getElem_ofFn]

theorem expanded_holds : HoldsSchedule expanded (keyBytes key128) 44 := by
  have h := expanding_holds 44 (Nat.le_refl _)
  exact h.congr rfl rfl

/-- The past of P1 before its ENCRYPT_BLOCK. -/
def pastExpand : Latched := ⟨keyBytes key128, blockC, false⟩

/-- The past of P1 during its ENCRYPT_BLOCK. -/
def pastEncrypt : Latched := ⟨keyBytes key128, inputBytes loaded.DIN, true⟩

theorem expanding_inv : (expanding 4).Inv pastExpand where
  encrypt_keyValid := by decide +kernel
  schedule_class := by decide +kernel
  expanding := fun _ => ⟨by decide +kernel, by decide +kernel, by decide +kernel, expanding_holds 4 (by omega), rfl⟩
  schedule := fun h => absurd h (by decide +kernel)
  encrypting := fun h => absurd h (by decide +kernel)
  encrypted := fun h => absurd h (by decide +kernel)
  errCode := by decide +kernel

theorem expanded_inv : expanded.Inv pastExpand where
  encrypt_keyValid := by decide +kernel
  schedule_class := by decide +kernel
  expanding := fun h => absurd h (by decide +kernel)
  schedule := fun _ => expanded_holds
  encrypting := fun h => absurd h (by decide +kernel)
  encrypted := fun h => absurd h (by decide +kernel)
  errCode := by decide +kernel

theorem encrypting_inv (r : BitVec 4) (st : Vector Byte 16) (hr : r.toNat ≤ 10)
    (hst : st = stateBefore (inputBytes loaded.DIN) (rkValue expanded) r.toNat) : (encrypting r st).Inv pastEncrypt where
  encrypt_keyValid := fun _ => rfl
  schedule_class := fun _ => by show nrOf (4#4).toNat = some (10#4).toNat; decide
  expanding := fun h => by cases h
  schedule := fun _ => expanded_holds.congr rfl rfl
  encrypting := fun _ => ⟨hr, rfl, hst⟩
  encrypted := fun _ h => by cases h
  errCode := by show (0#3).toNat ≤ 5; decide

/-- Round 0 is next: the State as loaded (R178). -/
theorem encrypting_first_inv : (encrypting 0#4 (inputBytes loaded.DIN)).Inv pastEncrypt :=
  encrypting_inv _ _ (by decide +kernel) (by rw [show (0#4).toNat = 0 from rfl, stateBefore, loadState_eq])

/-- The final round is next: the State after round 9 of L1.1. -/
theorem encrypting_last_inv :
    (encrypting 10#4 (bytes 0xeb40f21e#32 0x592e3884#32 0x8ba113e7#32 0x1bc342d2#32)).Inv pastEncrypt :=
  encrypting_inv _ _ (by decide +kernel) (by decide +kernel)

theorem witness_DecodeInvertsEncode : (Instr.wr 0xFFC#12 0xFFFFFFFF#32).wf = true ∧ (Instr.rd 0x000#12).wf = true := by
  decide +kernel

theorem witness_CommandDecodeUsesCmdAlone : (0xFFFFFFFC#32).toNat % 4 = 0 ∧ (0xFFFFFFFD#32).toNat % 4 = 1 ∧
    (0x00000002#32).toNat % 4 = 2 ∧ (0xFFFFFFFF#32).toNat % 4 = 3 := by decide +kernel

theorem witness_BusWordsFollowOpcodeTable :
    0x1FFCFFFFFFFF#45 &&& 0x100300000000#45 = 0x100000000000#45 ∧
    0x0FFC00000000#45 &&& 0x100300000000#45 = 0x000000000000#45 ∧
    0x1FFE00000000#45 &&& 0x000300000000#45 ≠ 0#45 ∧ 0x000100000000#45 &&& 0x000300000000#45 ≠ 0#45 := by decide +kernel

theorem witness_EngineDispatch : 1 ≤ (1#4).toNat ∧ (13#4).toNat + 1 ≤ (14#4).toNat ∧ 10#4 ≠ 0#4 ∧
    (∃ h s, State.Inv h s ∧ s.phase = .expand) ∧ ∃ h s, State.Inv h s ∧ s.phase = .encrypt :=
  ⟨by decide +kernel, by decide +kernel, by decide +kernel, ⟨_, _, expanding_inv, rfl⟩, ⟨_, _, encrypting_first_inv, rfl⟩⟩

theorem witness_StepRunsDecodedOperation :
    decode (.ctrl 1#32) = .ok .expandKey ∧ decode (.bus 32 0x000400000000#45) = .ok (.rd 0x004#12) ∧
    (∃ s : State, s.turns = .engine :: [] ∧ decode (.engine s.phase s.RND s.SNR) = .ok .kexpStep) ∧
    (∃ s : State, s.turns = .rst :: []) ∧
    (∃ s : State, s.turns = [] ∧ decode (.engine s.phase s.RND s.SNR) = .ok .encFinal) ∧
    (∃ s : State, s.turns = [] ∧ s.phase = .idle) :=
  ⟨by decide +kernel, by decide +kernel, ⟨{ expanding 4 with turns := [.engine] }, rfl, rfl⟩, ⟨{ loaded with turns := [.rst] }, rfl⟩,
    ⟨encrypting 10#4 (Vector.replicate 16 0#8), rfl, by decide +kernel⟩, ⟨loaded, rfl, rfl⟩⟩

theorem witness_TransactionsOutsideInterfaceRefused : (16 ≠ 32 ∨ (0x000400000000#45).toNat / 2 ^ 32 % 4 ≠ 0) ∧
    (32 ≠ 32 ∨ (0x000300000000#45).toNat / 2 ^ 32 % 4 ≠ 0) ∧ (0x001#12).toNat % 4 ≠ 0 ∧
    (0xFFF#12).toNat % 4 ≠ 0 := by decide +kernel

/-- An ended run with nothing listed, one with engine and reset turns still listed, and runs that have not ended: a host
transaction to come, a busy core. -/
theorem witness_FinishedRunIsStable :
    (loaded.finished = true ∧ loaded.turns = []) ∧
    (({ expanded with turns := [.engine, .rst] } : State).finished = true) ∧
    (({ expanded with turns := [.engine, .bus 32 0x000400000000#45] } : State).finished = false) ∧
    ((expanding 4).finished = false ∧ (expanding 4).phase ≠ .idle) ∧ ∃ t, step (expanding 4) = .next t :=
  ⟨by decide +kernel, by decide +kernel, by decide +kernel, by decide +kernel, _, rfl⟩

theorem witness_WindowPlacement : ∃ a : Nat, a < Config.AES_BASE ∨ Config.AES_BASE + 0x1000 ≤ a :=
  ⟨Config.AES_BASE + 0x1000, .inr (Nat.le_refl _)⟩

theorem witness_ReadEffect_offsets : (0x010#12).toNat = 0x010 + 4 * (0 : Fin 8).val ∧
    (0x02C#12).toNat = 0x010 + 4 * (7 : Fin 8).val ∧ (0x03C#12).toNat = 0x030 + 4 * (3 : Fin 4).val ∧
    (0x040#12).toNat = 0x040 + 4 * (0 : Fin 4).val ∧ (0x04C#12).toNat = 0x040 + 4 * (3 : Fin 4).val ∧
    (0x100#12).toNat = 0x100 + 4 * (0 : Fin 60).val ∧ (0x1EC#12).toNat = 0x100 + 4 * (59 : Fin 60).val := by decide +kernel

theorem witness_ReadEffect_schedule : (expanding 4).phase = .expand ∧ loaded.RK[(59 : Fin 60)] = none ∧
    expanded.phase ≠ .expand ∧ expanded.RK[(43 : Fin 60)] = some 0xb6630ca6#32 := by decide +kernel

/-- Reserved offsets, their first and last (R52). -/
theorem witness_reserved_offsets : ∀ a ∈ [0x00C#12, 0x050#12, 0x0FC#12, 0x1F0#12, 0xFFC#12], a.toNat % 4 = 0 ∧
    (a.toNat = 0x00C ∨ (0x050 ≤ a.toNat ∧ a.toNat ≤ 0x0FC) ∨ 0x1F0 ≤ a.toNat) := by simp

theorem witness_SideEffectsOfTransactions :
    (∃ s t, exec (.rd 0x004#12) s = .next t) ∧
    (∃ s t, exec (.wr 0x03C#12 1#32) s = .next t ∧ t ≠ s ∧ s.phase = .idle ∧ (0x03C#12).toNat ≠ 0x000) :=
  ⟨⟨loaded, _, rfl⟩, ⟨loaded, _, rfl, by decide +kernel, rfl, by decide +kernel⟩⟩

/-- Offsets that ignore writes and offsets that take them, at the ends of each range (R52, R171). -/
theorem witness_WriteEffect_offsets :
    (∀ a ∈ [0x004#12, 0x00C#12, 0x040#12, 0x100#12, 0xFFC#12], a.toNat % 4 = 0 ∧
      ¬ (a.toNat = 0x000 ∨ a.toNat = 0x008 ∨ (0x010 ≤ a.toNat ∧ a.toNat ≤ 0x03C))) ∧
    (∀ a ∈ [0x000#12, 0x008#12, 0x010#12, 0x03C#12], a.toNat % 4 = 0 ∧
      (a.toNat = 0x000 ∨ a.toNat = 0x008 ∨ (0x010 ≤ a.toNat ∧ a.toNat ≤ 0x03C))) := by simp

theorem witness_WriteEffect_phases : loaded.phase = .idle ∧ (expanding 4).phase ≠ .idle ∧
    (0x030#12).toNat = 0x030 + 4 * (0 : Fin 4).val ∧ (0x008#12).toNat = 0x008 := by decide +kernel

theorem witness_WrittenRegisterReadsBack : loaded.phase = .idle ∧ (0x008#12).toNat % 4 = 0 ∧ (0x010#12).toNat % 4 = 0 ∧
    (0x03C#12).toNat % 4 = 0 ∧ (0x010 ≤ (0x03C#12).toNat ∧ (0x03C#12).toNat ≤ 0x03C) ∧
    0x010#12 ≠ 0x03C#12 := by decide +kernel

theorem witness_ReservedBits : readAt 0x008#12 loaded = some 0x00001004#32 ∧
    readAt 0x004#12 expanded = some 0x040A0006#32 := by decide +kernel

theorem witness_LegalKeycfgValues : loaded.phase = .idle := rfl

theorem witness_NopEffect : loaded.phase = .idle ∧ (expanding 4).phase ≠ .idle := by decide +kernel

/-- `loaded` with other KEYCFG fields. -/
def configured (nk : BitVec 4) (keylen : BitVec 6) : State := { loaded with KEYCFG_NK := nk, KEYCFG_KEYLEN := keylen }

/-- A state for each clause: busy, wrong class (5, the legal values' neighbour), wrong length, each class accepted. -/
theorem witness_ExpandKeyEffect :
    (expanding 4).phase ≠ .idle ∧
    ((configured 5#4 16#6).phase = .idle ∧ ¬ ((configured 5#4 16#6).KEYCFG_NK = 4#4 ∨
      (configured 5#4 16#6).KEYCFG_NK = 6#4 ∨ (configured 5#4 16#6).KEYCFG_NK = 8#4)) ∧
    ((configured 4#4 12#6).KEYCFG_NK = 4#4 ∧
      (configured 4#4 12#6).KEYCFG_KEYLEN.toNat ≠ 4 * (configured 4#4 12#6).KEYCFG_NK.toNat) ∧
    (∀ c ∈ [(4#4, 16#6), (6#4, 24#6), (8#4, 32#6)], (configured c.1 c.2).phase = .idle ∧
      (configured c.1 c.2).KEYCFG_KEYLEN.toNat = 4 * (configured c.1 c.2).KEYCFG_NK.toNat) := by decide +kernel

theorem witness_EncryptBlockEffect : (encrypting 0#4 (Vector.replicate 16 0#8)).phase ≠ .idle ∧
    (loaded.phase = .idle ∧ loaded.KEY_VALID = false) ∧ expanded.phase = .idle ∧ expanded.KEY_VALID = true := by decide +kernel

theorem witness_ReservedCommandEffect : (expanding 4).phase ≠ .idle ∧ loaded.phase = .idle := by decide +kernel

/-- The first and the last word of an expansion. -/
theorem witness_KexpStepEffect : ∀ n ∈ [4, 43], (expanding n).phase = .expand ∧ (expanding n).SNK = 4#4 ∧
    (expanding n).SNR = 10#4 ∧ (expanding n).SNK.toNat ≤ (expanding n).KI.toNat ∧
    (expanding n).KI.toNat < 4 * ((expanding n).SNR.toNat + 1) ∧
    ∀ k, k < (expanding n).KI.toNat → rkWord (expanding n) k = some (words schedule128 k) := by decide +kernel

/-- EncInitialEffect, EncRoundEffect, EncFinalEffect: the round keys of the initial, the first and last main, and the
final round. -/
theorem witness_EncRoundEffects : ∀ r ∈ [0#4, 1#4, 9#4, 10#4],
    (encrypting r (Vector.replicate 16 0#8)).phase = .encrypt ∧
    ∀ c : Fin 4, rkWord (encrypting r (Vector.replicate 16 0#8)) (4 * r.toNat + c.val) =
      some (roundKeyOf (words schedule128) r.toNat)[c] := by decide +kernel

/-- EncInitialEffect, EncRoundEffect, EncFinalEffect: the ranges of RND. -/
theorem witness_EncRoundEffects_ranges : (encrypting 0#4 (Vector.replicate 16 0#8)).RND = 0#4 ∧
    1 ≤ (encrypting 1#4 (Vector.replicate 16 0#8)).RND.toNat ∧
    (encrypting 9#4 (Vector.replicate 16 0#8)).RND.toNat + 1 ≤ (encrypting 9#4 (Vector.replicate 16 0#8)).SNR.toNat ∧
    (encrypting 10#4 (Vector.replicate 16 0#8)).RND = (encrypting 10#4 (Vector.replicate 16 0#8)).SNR := by decide +kernel

theorem witness_NoScheduleAfterReset : ∃ t, exec .reset expanded = .next t := ⟨_, rfl⟩

theorem witness_ErrorPriority : (∃ t, exec (.rd 0x004#12) loaded = .next t) ∧ (0x000#12).toNat % 4 = 0 :=
  ⟨⟨_, rfl⟩, by decide +kernel⟩

/-- A command rejected while idle and one dropped while busy. -/
theorem witness_RejectedCommandIsPrecise :
    (∃ t, commandOf .encryptBlock = some .encryptBlock ∧ exec .encryptBlock loaded = .next t ∧ t.phase = loaded.phase) ∧
    ∃ t, commandOf (.wr 0x000#12 1#32) = some .expandKey ∧ exec (.wr 0x000#12 1#32) (expanding 4) = .next t ∧
      t.phase = (expanding 4).phase :=
  ⟨⟨_, rfl, rfl, rfl⟩, ⟨_, by decide +kernel, rfl, rfl⟩⟩

theorem witness_ErrorClearedOnlyByAcceptance :
    ∃ t, exec .expandKey { loaded with ERR := 3#3 } = .next t ∧ ({ loaded with ERR := 3#3 } : State).ERR ≠ 0#3 ∧
      t.ERR = 0#3 := ⟨_, rfl, by decide +kernel, rfl⟩

theorem witness_DoutWrittenByFinalStepOnly :
    ∃ t, exec .encFinal (encrypting 10#4 (Vector.replicate 16 0#8)) = .next t ∧
      t.DOUT ≠ (encrypting 10#4 (Vector.replicate 16 0#8)).DOUT := ⟨_, rfl, by decide +kernel⟩

theorem witness_ScheduleWrittenByExpansionOnly :
    (∃ t, exec .kexpStep (expanding 4) = .next t ∧ t.RK ≠ (expanding 4).RK) ∧
    ∃ t, exec .expandKey loaded = .next t ∧ t.RK ≠ loaded.RK :=
  ⟨⟨_, rfl, by decide +kernel⟩, ⟨_, rfl, by decide +kernel⟩⟩

/-- DoneFollowsCommands, KeyValidFollowsExpansion: an engine step, a command, and neither. -/
theorem witness_flag_clauses :
    (∃ t, exec .kexpStep (expanding 4) = .next t ∧ engineOperation .kexpStep = true) ∧
    (∃ t, exec .expandKey loaded = .next t ∧ commandOf .expandKey = some .expandKey ∧ loaded.phase = .idle) ∧
    ∃ t, exec (.rd 0x004#12) loaded = .next t ∧ engineOperation (.rd 0x004#12) = false ∧
      commandOf (.rd 0x004#12) = none ∧ Instr.rd 0x004#12 ≠ .reset ∧ Instr.rd 0x004#12 ≠ .kexpStep :=
  ⟨⟨_, rfl, rfl⟩, ⟨_, rfl, rfl, rfl⟩, ⟨_, rfl, rfl, rfl, by decide +kernel, by decide +kernel⟩⟩

/-- Each clause: an accepted EXPAND_KEY, and one rejected. -/
theorem witness_ScheduleClassLatchedAtAcceptance :
    (∃ t, exec .expandKey loaded = .next t ∧ commandOf .expandKey = some .expandKey ∧ loaded.phase = .idle ∧
      t.phase = .expand) ∧
    ∃ t, exec .expandKey (configured 5#4 16#6) = .next t ∧ Instr.expandKey ≠ .reset ∧ t.phase ≠ .expand :=
  ⟨⟨_, rfl, rfl, rfl, rfl⟩, ⟨_, rfl, by decide, by decide⟩⟩

/-- Each change of phase. -/
theorem witness_PhaseChanges :
    (∃ t, exec .expandKey loaded = .next t ∧ t.phase ≠ loaded.phase) ∧
    (∃ t, exec .encryptBlock expanded = .next t ∧ t.phase ≠ expanded.phase) ∧
    (∃ t, exec .kexpStep (expanding 43) = .next t ∧ t.phase ≠ (expanding 43).phase) ∧
    (∃ t, exec .encFinal (encrypting 10#4 (Vector.replicate 16 0#8)) = .next t ∧
      t.phase ≠ (encrypting 10#4 (Vector.replicate 16 0#8)).phase) :=
  ⟨⟨_, rfl, by decide +kernel⟩, ⟨_, rfl, by decide +kernel⟩, ⟨_, rfl, by decide +kernel⟩, ⟨_, rfl, by decide +kernel⟩⟩

/-- Each clause: a write while idle to KEYCFG, KEY0, KEY7, DIN0 and DIN3, and an operation that writes none of them. -/
theorem witness_InputsWrittenByHostOnly :
    (∀ a ∈ [0x008#12, 0x010#12, 0x02C#12, 0x030#12, 0x03C#12], ∃ t, exec (.wr a 7#32) loaded = .next t) ∧
    loaded.phase = .idle ∧ (0x010#12).toNat = 0x010 + 4 * (0 : Fin 8).val ∧
    (0x02C#12).toNat = 0x010 + 4 * (7 : Fin 8).val ∧ (0x030#12).toNat = 0x030 + 4 * (0 : Fin 4).val ∧
    (0x03C#12).toNat = 0x030 + 4 * (3 : Fin 4).val ∧ ∃ t, exec .nop loaded = .next t ∧ Instr.nop ≠ .reset :=
  ⟨fun a h => ⟨_, exec_wr loaded a 7#32 ((by simp : ∀ a ∈ [0x008#12, 0x010#12, 0x02C#12, 0x030#12, 0x03C#12],
    a.toNat % 4 = 0) a h)⟩, rfl, rfl, rfl, rfl, rfl, _, rfl, by decide⟩

theorem witness_HiddenStateWrittenByItsCommand :
    (∃ t, exec .encryptBlock expanded = .next t ∧ t.ST ≠ expanded.ST) ∧
    ∃ t, exec .kexpStep (expanding 4) = .next t ∧ t.KI ≠ (expanding 4).KI :=
  ⟨⟨_, rfl, by decide +kernel⟩, ⟨_, rfl, by decide +kernel⟩⟩

theorem witness_HostCannotDisturbCommand : hostOperation (.wr 0x030#12 1#32) = true ∧ (Instr.wr 0x030#12 1#32).wf = true ∧
    (expanding 4).phase ≠ .idle := by decide +kernel

/-- Two states that differ in what the engine does not read. -/
theorem witness_EngineReadsSequencerOnly :
    engineOperation .kexpStep = true ∧
    ({ expanding 4 with DIN := Vector.replicate 4 0#32, ERR := 5#3 } : State).RK = (expanding 4).RK ∧
    ∃ t, exec .kexpStep (expanding 4) = .next t := ⟨rfl, rfl, _, rfl⟩

theorem witness_UpperKeyRegistersIgnored : ∀ j : Fin 8, j.val < loaded.KEYCFG_NK.toNat →
    (loaded.KEY.set 4 0xffffffff#32)[j] = loaded.KEY[j] := by decide +kernel

theorem witness_StepsEqualApartFromDraws : (∀ rest, (expanding 4).turns ≠ .rst :: rest) ∧
    ∃ t, step (expanding 4) = .next t := ⟨fun _ => by simp [expanding, loaded], ⟨_, rfl⟩⟩

/-- The invariants hold in an idle core with a schedule, in a running expansion and in a running encryption, and each
takes a step. -/
theorem witness_StepKeepsInvariants :
    (expanded.Inv pastExpand ∧ ∃ t, step expanded = .next t) ∧
    ((expanding 4).Inv pastExpand ∧ ∃ t, step (expanding 4) = .next t) ∧
    ((encrypting 0#4 (inputBytes loaded.DIN)).Inv pastEncrypt ∧
      ∃ t, step (encrypting 0#4 (inputBytes loaded.DIN)) = .next t) :=
  ⟨⟨expanded_inv, _, rfl⟩, ⟨expanding_inv, _, rfl⟩, ⟨encrypting_first_inv, _, rfl⟩⟩

theorem witness_InvariantsRuleOutStops : (expanding 4).Inv pastExpand := expanding_inv

theorem witness_CommandCompletes :
    ((expanding 4).Inv pastExpand ∧ (expanding 4).turns = [] ∧ (expanding 4).phase ≠ .idle ∧
      remainingSteps (expanding 4) = 40) ∧
    ((encrypting 10#4 (bytes 0xeb40f21e#32 0x592e3884#32 0x8ba113e7#32 0x1bc342d2#32)).Inv pastEncrypt ∧
      remainingSteps (encrypting 10#4 (bytes 0xeb40f21e#32 0x592e3884#32 0x8ba113e7#32 0x1bc342d2#32)) = 1) :=
  ⟨⟨expanding_inv, rfl, by decide +kernel, by decide +kernel⟩, ⟨encrypting_last_inv, by decide +kernel⟩⟩

/-- 39 engine turns with a STATUS poll and a dropped write among them, before the last. -/
theorem witness_ExpandKeyComputesKeyExpansion :
    let mid := Turn.bus 32 0x000400000000#45 :: .bus 32 0x1030deadbeef#45 :: List.replicate 39 .engine
    loaded.phase = .idle ∧ cmdOf 0xFFFFFFFD#32 = .expandKey ∧ nrOf loaded.KEYCFG_NK.toNat = some 10 ∧
    loaded.KEYCFG_KEYLEN.toNat = 4 * loaded.KEYCFG_NK.toNat ∧ mid.all Turn.withinCommand = true ∧
    mid.count .engine + 1 = 4 * (10 + 1) - loaded.KEYCFG_NK.toNat := by decide +kernel

theorem witness_EncryptBlockComputesCipher :
    expanded.Inv pastExpand ∧ expanded.phase = .idle ∧ cmdOf 2#32 = .encryptBlock ∧ expanded.KEY_VALID = true ∧
    (List.replicate 10 Turn.engine).all Turn.withinCommand = true ∧
    (List.replicate 10 Turn.engine).count .engine = expanded.SNR.toNat :=
  ⟨expanded_inv, rfl, by decide +kernel, rfl, by decide +kernel, by decide +kernel⟩

theorem witness_CoreEncryptsUnderItsKey : loaded.phase = .idle ∧ nrOf loaded.KEYCFG_NK.toNat = some 10 ∧
    loaded.KEYCFG_KEYLEN.toNat = 4 * loaded.KEYCFG_NK.toNat := by decide +kernel

/-- Each branch of KeyStep, at the first and the last index of a schedule among them. -/
theorem witness_KeyStepBranches : (4 = 4 ∧ 10 = 10) ∧ (6 = 6 ∧ 12 = 12) ∧ (8 = 8 ∧ 14 = 14) ∧
    (4 ≤ 4 ∧ 4 < 4 * (10 + 1) ∧ 4 % 4 = 0) ∧ (6 ≤ 10 ∧ 10 < 4 * (12 + 1) ∧ 10 % 6 ≠ 0 ∧ ¬ (6 = 8 ∧ 10 % 6 = 4)) ∧
    (8 ≤ 12 ∧ 12 < 4 * (14 + 1) ∧ 12 % 8 ≠ 0 ∧ 12 % 8 = 4) ∧ (43 < 4 * (10 + 1) ∧ 43 % 4 ≠ 0) := by decide

theorem witness_KeyExpansionByItsLoops : (6 = 4 ∧ 12 = 10) ∨ (6 = 6 ∧ 12 = 12) ∨ (6 = 8 ∧ 12 = 14) := by decide

theorem witness_CipherByItsRounds : 12 = 10 ∨ 12 = 12 ∨ 12 = 14 := by decide

theorem witness_XtimeLaws : xtime 0#8 = 0#8 ∧ xtime 0x80#8 = xtime 0x80#8 := by decide

theorem witness_SboxIsAffineInverse : 0xff#8 ≠ 0#8 ∧ sbox 0xff#8 = sbox 0xff#8 := by decide +kernel

theorem witness_RoundConstants : 1 ≤ 1 ∧ 1 ≤ 9 ∧ 9 ≤ 9 := by decide

end Sys2Proof.Tests
end

section
/-! SUPPORT. Which form comes next and what a step does with it; the statements about the step cite these. -/

namespace Sys2Proof.Machine

/-- The next turn listed presents its form, and the operation finds the turn taken (R13, R59). -/
theorem nextForm_of_turns_cons {s : State} {t : Turn} {rest : List Turn} (h : s.turns = t :: rest) :
    nextForm s = some (formOf t s, { s with turns := rest }) := by
  simp [nextForm, h]

/-- With no turn to come a busy engine goes on (R180). -/
theorem nextForm_of_turns_nil_of_busy {s : State} (h : s.turns = []) (hp : s.phase ≠ .idle) :
    nextForm s = some (formOf .engine s, s) := by
  simp [nextForm, h, (busy_eq_true s).2 hp]

/-- With no turn to come an idle core has no form to decode (R213). -/
theorem nextForm_of_turns_nil_of_idle {s : State} (h : s.turns = []) (hp : s.phase = .idle) : nextForm s = none := by
  simp [nextForm, h, (busy_eq_false s).2 hp]

theorem step_of_nextForm_none {s : State} (h : nextForm s = none) : step s = .next s := by
  simp [step, h]

theorem step_of_decode_ok {s t : State} {f : Form} {i : Instr} (h : nextForm s = some (f, t)) (hd : decode f = .ok i) :
    step s = exec i t := by
  simp [step, h, hd]

/-- A listed turn whose form selects an operation runs it. -/
theorem step_of_turns_cons {s : State} {t : Turn} {rest : List Turn} {i : Instr} (h : s.turns = t :: rest)
    (hd : decode (formOf t s) = .ok i) : step s = exec i { s with turns := rest } :=
  step_of_decode_ok (nextForm_of_turns_cons h) hd

/-- No micro-step is selected while idle (R76). -/
theorem phase_ne_idle_of_decode_engine {p : Phase} {rnd snr : BitVec 4} {i : Instr}
    (h : decode (.engine p rnd snr) = .ok i) : p ≠ .idle := by
  rintro rfl
  simp [decode, decodeEngine] at h

/-- Settles O6: each listed turn by its form; with none listed, a selected micro-step means the core is busy. -/
theorem stepRunsDecodedOperation : Obligations.StepRunsDecodedOperation := by
  intro s
  refine ⟨fun v rest i h hd => ?ctrl, fun size w rest i h hd => ?bus, fun rest i h hd => ?engine, fun rest h => ?rst,
    fun i h hd => ?busyCore, fun h hp => ?idleCore⟩
  case ctrl => exact step_of_turns_cons h hd
  case bus => exact step_of_turns_cons h hd
  case engine => exact step_of_turns_cons h hd
  case rst => exact step_of_turns_cons h rfl
  case busyCore => exact step_of_decode_ok (nextForm_of_turns_nil_of_busy h (phase_ne_idle_of_decode_engine hd)) hd
  case idleCore => exact step_of_nextForm_none (nextForm_of_turns_nil_of_idle h hp)

end Sys2Proof.Machine
end

section
/-! SUPPORT. What one operation can do to the registers (10_state.md R21–R34), said once as a case list whose cases are
named; the invariants and the statements about who writes a register are read off from it. -/

namespace Sys2Proof.Machine

/-- The next states an operation can lead to, by what it does there. -/
inductive Effect : Instr → State → State → Prop where
  /-- A read, NOP, a write that a register ignores, or a write dropped while busy: no register but ERR (R170, R171). -/
  | kept {i : Instr} {s : State} {e : BitVec 3} {reads : List Word} {draws : Nat} (host : hostOperation i = true)
      (noCommand : ∀ c, commandOf i = some c → s.phase = .idle → c = .nop) (err : e = s.ERR ∨ e = 5#3) :
      Effect i s { s with ERR := e, reads := reads, draws := draws }
  /-- KEYCFG written while idle (R172). -/
  | keycfg {s : State} {a : Offset} {v : Word} (noCommand : commandOf (.wr a v) = none) (idle : s.phase = .idle)
      (addr : a.toNat = 0x008) : Effect (.wr a v) s (writeKeycfg v s)
  /-- KEYj written while idle (R173). -/
  | key {s : State} {j : Fin 8} {a : Offset} {v : Word} (noCommand : commandOf (.wr a v) = none) (idle : s.phase = .idle)
      (addr : a.toNat = 0x010 + 4 * j.val) : Effect (.wr a v) s (writeKey j v s)
  /-- DINj written while idle (R174). -/
  | din {s : State} {j : Fin 4} {a : Offset} {v : Word} (noCommand : commandOf (.wr a v) = none) (idle : s.phase = .idle)
      (addr : a.toNat = 0x030 + 4 * j.val) : Effect (.wr a v) s (writeDin j v s)
  /-- A command rejected while idle (R177–R179). -/
  | rejected {i : Instr} {s : State} {c : Cmd} {valid : Bool} {e : BitVec 3} (command : commandOf i = some c)
      (notNop : c ≠ .nop) (idle : s.phase = .idle) (keyValid : valid = if c = .expandKey then false else s.KEY_VALID)
      (err : e.toNat ≤ 5) : Effect i s { s with DONE := false, KEY_VALID := valid, ERR := e }
  /-- EXPAND_KEY accepted (R177). -/
  | expandAccepted {i : Instr} {s : State} {nr : Nat} (command : commandOf i = some .expandKey) (idle : s.phase = .idle)
      (rounds : nrOf s.KEYCFG_NK.toNat = some nr) :
      Effect i s (Machine.expandAccepted nr { s with DONE := false, KEY_VALID := false })
  /-- ENCRYPT_BLOCK accepted (R178). -/
  | encryptAccepted {i : Instr} {s : State} (command : commandOf i = some .encryptBlock) (idle : s.phase = .idle)
      (keyValid : s.KEY_VALID = true) : Effect i s (Machine.encryptAccepted { s with DONE := false })
  /-- KEXP_STEP that leaves words to compute (R181). -/
  | kexpStep {s : State} {prev back : Word} (expand : s.phase = .expand) (operands : kexpOperands s = some (prev, back))
      (more : s.KI.toNat + 1 ≠ 4 * (s.SNR.toNat + 1)) :
      Effect .kexpStep s { s with
        RK := s.RK.setIfInBounds s.KI.toNat (some (keyStepOn prev back s.KI.toNat s.SNK.toNat)), KI := s.KI + 1#6 }
  /-- KEXP_STEP that completes the schedule (R181). -/
  | kexpLast {s : State} {prev back : Word} (expand : s.phase = .expand) (operands : kexpOperands s = some (prev, back))
      (last : s.KI.toNat + 1 = 4 * (s.SNR.toNat + 1)) :
      Effect .kexpStep s { s with
        RK := s.RK.setIfInBounds s.KI.toNat (some (keyStepOn prev back s.KI.toNat s.SNK.toNat)), KI := s.KI + 1#6,
        phase := .idle, KEY_VALID := true, DONE := true }
  /-- ENC_INITIAL (R182). -/
  | encInitial {s : State} {k : Vector Word 4} (encrypt : s.phase = .encrypt) (round : s.RND = 0#4)
      (roundKey : roundKey s 0 = some k) : Effect .encInitial s { s with ST := addRoundKey s.ST k, RND := 1#4 }
  /-- ENC_ROUND (R183). -/
  | encRound {s : State} {k : Vector Word 4} (encrypt : s.phase = .encrypt) (first : 1 ≤ s.RND.toNat)
      (notFinal : s.RND.toNat < s.SNR.toNat) (roundKey : roundKey s s.RND.toNat = some k) :
      Effect .encRound s { s with ST := mainRound s.ST k, RND := s.RND + 1#4 }
  /-- ENC_FINAL (R184). -/
  | encFinal {s : State} {k : Vector Word 4} (encrypt : s.phase = .encrypt) (round : s.RND = s.SNR)
      (roundKey : roundKey s s.SNR.toNat = some k) : Effect .encFinal s (encryptDone (finalRound s.ST k) s)
  /-- The reset input (R230). -/
  | reset {s : State} : Effect .reset s (resetCore s)

theorem hostOperation_of_commandOf {i : Instr} {c : Cmd} (h : commandOf i = some c) : hostOperation i = true := by
  cases i <;> simp_all [commandOf, hostOperation]

theorem engineOperation_of_hostOperation {i : Instr} (h : hostOperation i = true) : engineOperation i = false := by
  cases i <;> simp_all [engineOperation, hostOperation]

theorem engineOperation_of_commandOf {i : Instr} {c : Cmd} (h : commandOf i = some c) : engineOperation i = false :=
  engineOperation_of_hostOperation (hostOperation_of_commandOf h)

theorem command_effect {i : Instr} {c : Cmd} (h : commandOf i = some c) (s : State) :
    Effect i s (whenIdle (commandIdle c) s) := by
  have host := hostOperation_of_commandOf h
  rcases command_cases c s with ⟨hp, ht⟩ | ⟨hp, rfl, ht⟩ | ⟨hp, rfl, e, he, ht⟩ | ⟨hp, rfl, nr, hn, -, ht⟩ |
    ⟨hp, rfl, hv, ht⟩ | ⟨hp, rfl, hv, ht⟩ | ⟨hp, rfl, ht⟩
  all_goals rw [ht]
  · exact .kept host (fun _ _ hi => absurd hi hp) (.inr rfl)
  · exact .kept host (fun c hc _ => by simpa [h, eq_comm] using hc) (.inl rfl)
  · exact .rejected h (by decide) hp rfl (by rcases he with rfl | rfl <;> decide)
  · exact .expandAccepted h hp hn
  · exact .rejected h (by decide) hp rfl (by decide)
  · exact .encryptAccepted h hp hv
  · exact .rejected h (by decide) hp rfl (by decide)

theorem exec_wr_effect {s t : State} {a : Offset} {v : Word} (h : exec (.wr a v) s = .next t)
    (hc : commandOf (.wr a v) = none) : Effect (.wr a v) s t := by
  have noCommand : ∀ c, commandOf (.wr a v) = some c → s.phase = .idle → c = .nop := by simp [hc]
  rcases exec_wr_next h hc with rfl | ⟨-, rfl⟩ | ⟨hp, ha, rfl⟩ | ⟨hp, j, ha, rfl⟩ | ⟨hp, j, ha, rfl⟩
  · exact .kept rfl noCommand (.inl rfl)
  · exact .kept rfl noCommand (.inr rfl)
  · exact .keycfg hc hp ha
  · exact .key hc hp ha
  · exact .din hc hp ha

theorem exec_rd_effect {s t : State} {a : Offset} (h : exec (.rd a) s = .next t) : Effect (.rd a) s t := by
  obtain ⟨-, ⟨v, -, rfl⟩ | ⟨-, rfl⟩⟩ := exec_rd_next h
  all_goals exact .kept rfl (by simp [commandOf]) (.inl rfl)

theorem exec_kexpStep_effect {s t : State} (h : exec .kexpStep s = .next t) : Effect .kexpStep s t := by
  obtain ⟨hp, prev, back, ho, rfl⟩ := exec_kexpStep_next.1 h
  rcases storeScheduleWord_cases (keyStepOn prev back s.KI.toNat s.SNK.toNat) s with ⟨hk, ht⟩ | ⟨hk, ht⟩
  · rw [ht]; exact .kexpLast hp ho hk
  · rw [ht]; exact .kexpStep hp ho hk

/-- What exec can do. -/
theorem exec_effect {i : Instr} {s t : State} (h : exec i s = .next t) : Effect i s t := by
  cases hc : commandOf i with
  | some c => rw [exec_command hc] at h; cases h; exact command_effect hc s
  | none =>
    cases i with
    | wr a v => exact exec_wr_effect h hc
    | rd a => exact exec_rd_effect h
    | kexpStep => exact exec_kexpStep_effect h
    | encInitial => obtain ⟨hp, hr, k, hk, rfl⟩ := exec_encInitial_next.1 h; exact .encInitial hp hr hk
    | encRound => obtain ⟨hp, ⟨h1, h2⟩, k, hk, rfl⟩ := exec_encRound_next.1 h; exact .encRound hp h1 h2 hk
    | encFinal => obtain ⟨hp, hr, k, hk, rfl⟩ := exec_encFinal_next.1 h; exact .encFinal hp hr hk
    | reset => cases h; exact .reset
    | nop | expandKey | encryptBlock | cmdReserved => simp [commandOf] at hc

end Sys2Proof.Machine
end

section
/-! SUPPORT. Every operation, and with it every step, keeps the invariants of 10_state.md section 7 (R37). -/

namespace Sys2Proof.Machine

/-! How an operation moves the past (R28, R37). -/

theorem Latched.after_of_busy {h : Latched} {s t : State} (hs : s.phase ≠ .idle) (ht : t.phase = .idle → t.DONE = true) :
    h.after s t = h := by
  simp only [Latched.after, hs, false_and, if_false]
  rw [if_neg]
  rintro ⟨hp, hd⟩
  simp [ht hp] at hd

/-- A step that leaves phase and DONE leaves the past: with DONE = 0 while idle it names no ENCRYPT_BLOCK already. -/
theorem State.Inv.after_eq {h : Latched} {s t : State} (hi : s.Inv h) (hp : t.phase = s.phase) (hd : t.DONE = s.DONE) :
    h.after s t = h := by
  by_cases hs : s.phase = .idle
  · have encrypted_eq (h0 : s.DONE = false) : h.encrypted = false := by
      cases he : h.encrypted with
      | false => rfl
      | true => simp [(hi.encrypted he hs).1] at h0
    simp only [Latched.after, hp, hd, hs, reduceCtorEq, and_false, if_false, true_and]
    split
    · rw [← encrypted_eq ‹_›]
    · rfl
  · simp only [Latched.after, hp, hs, false_and, if_false]

theorem Latched.after_of_not_done (h : Latched) {s t : State} (hp : t.phase = .idle) (hd : t.DONE = false) :
    h.after s t = { h with encrypted := false } := by
  simp [Latched.after, hp, hd]

/-! What the invariants ask of an idle core and what each kind of operation keeps of them. -/

/-- An idle core whose last command did not end need only hold the schedule it says it holds. -/
theorem State.Inv.of_idle_of_not_done {h : Latched} {s t : State} (hp : t.phase = .idle) (hd : t.DONE = false)
    (hv : t.KEY_VALID = true → nrOf t.SNK.toNat = some t.SNR.toNat ∧ HoldsSchedule t h.key (4 * (t.SNR.toNat + 1)))
    (err : t.ERR.toNat ≤ 5) : t.Inv (h.after s t) := by
  rw [h.after_of_not_done hp hd]
  constructor
  case encrypt_keyValid => simp [hp]
  case schedule_class => simpa [hp] using fun v => (hv v).1
  case expanding => simp [hp]
  case schedule => exact fun v => (hv v).2
  case encrypting => simp [hp]
  case encrypted => simp
  case errCode => exact err

theorem State.Inv.kept {h : Latched} {s t : State} (hi : s.Inv h)
    (ht : t = { s with KEYCFG_NK := t.KEYCFG_NK, KEYCFG_KEYLEN := t.KEYCFG_KEYLEN, KEY := t.KEY, DIN := t.DIN,
                       ERR := t.ERR, turns := t.turns, reads := t.reads, draws := t.draws })
    (err : t.ERR.toNat ≤ 5) : t.Inv (h.after s t) := by
  rw [hi.after_eq (by rw [ht]) (by rw [ht])]
  apply hi.congr _ _ _ _ _ _ _ _ _ _ err <;> rw [ht]

theorem State.Inv.expandAccepted {h : Latched} {s : State} {nr : Nat} (hn : nrOf s.KEYCFG_NK.toNat = some nr) :
    (Machine.expandAccepted nr { s with DONE := false, KEY_VALID := false }).Inv
      { h with key := keyBytes s.KEY, encrypted := false } := by
  have hk := (nrOf_eq_some _ _).1 hn
  have hr := toNat_nrOf hn
  have ki : s.KEYCFG_NK.toNat % 64 = s.KEYCFG_NK.toNat := by omega
  have holds := holdsSchedule_key (s := Machine.expandAccepted nr { s with DONE := false, KEY_VALID := false })
    (key := s.KEY) s.RK (by simp) (by rw [expandAccepted_SNK]; dsimp only; omega)
  constructor
  case encrypt_keyValid => simp
  case schedule_class => simpa [hr] using hn
  case expanding =>
    intro _
    simp only [expandAccepted_KEY_VALID, expandAccepted_SNK, expandAccepted_KI, expandAccepted_SNR,
      BitVec.toNat_setWidth, ki, hr] at holds ⊢
    exact ⟨trivial, le_rfl, by omega, holds, trivial⟩
  case schedule => simp
  case encrypting => simp
  case encrypted => simp
  case errCode => simp

theorem State.Inv.encryptAccepted {h : Latched} {s : State} (hi : s.Inv h) (hv : s.KEY_VALID = true) :
    (Machine.encryptAccepted { s with DONE := false }).Inv
      { h with block := inputBytes s.DIN, encrypted := true } where
  encrypt_keyValid := by simpa using hv
  schedule_class := by simpa [hv] using hi.schedule_class (.inl hv)
  expanding := by simp
  schedule _ := (hi.schedule hv).congr rfl rfl
  encrypting := by simp [stateBefore]
  encrypted := by simp
  errCode := by simp

section
variable {h : Latched} {s : State} {prev back : Word}

theorem State.Inv.toNat_KI_succ (hi : s.Inv h) (hp : s.phase = .expand) : (s.KI + 1#6).toNat = s.KI.toNat + 1 := by
  obtain ⟨-, -, below, -, -⟩ := hi.expanding hp
  have := (nrOf_eq_some _ _).1 (hi.schedule_class (.inr hp))
  rw [BitVec.toNat_add]
  simp only [BitVec.toNat_ofNat]
  omega

theorem State.Inv.kexpStep (hi : s.Inv h) (hp : s.phase = .expand) (ho : Machine.kexpOperands s = some (prev, back))
    (more : s.KI.toNat + 1 ≠ 4 * (s.SNR.toNat + 1)) :
    ({ s with
        RK := s.RK.setIfInBounds s.KI.toNat (some (keyStepOn prev back s.KI.toNat s.SNK.toNat)),
        KI := s.KI + 1#6 } : State).Inv h := by
  obtain ⟨valid, above, below, holds, past⟩ := hi.expanding hp
  have ki := hi.toNat_KI_succ hp
  constructor
  case encrypt_keyValid => simp [hp]
  case schedule_class => exact hi.schedule_class
  case expanding =>
    intro _
    simp only [ki]
    exact ⟨valid, by omega, by omega, holdsSchedule_succ holds ho rfl rfl, past⟩
  case schedule => simp [valid]
  case encrypting => simp [hp]
  case encrypted => simp [past]
  case errCode => exact hi.errCode

theorem State.Inv.kexpLast (hi : s.Inv h) (hp : s.phase = .expand) (ho : Machine.kexpOperands s = some (prev, back))
    (last : s.KI.toNat + 1 = 4 * (s.SNR.toNat + 1)) :
    ({ s with
        RK := s.RK.setIfInBounds s.KI.toNat (some (keyStepOn prev back s.KI.toNat s.SNK.toNat)),
        KI := s.KI + 1#6, phase := .idle, KEY_VALID := true, DONE := true } : State).Inv h := by
  obtain ⟨-, -, -, holds, past⟩ := hi.expanding hp
  constructor
  case encrypt_keyValid => simp
  case schedule_class => exact fun _ => hi.schedule_class (.inr hp)
  case expanding => simp
  case schedule =>
    intro _
    dsimp only
    rw [← last]
    exact holdsSchedule_succ holds ho rfl rfl
  case encrypting => simp
  case encrypted => simp [past]
  case errCode => exact hi.errCode

end

section
variable {h : Latched} {s : State}

theorem State.Inv.pos_SNR (hi : s.Inv h) (hp : s.phase = .encrypt) : 1 ≤ s.SNR.toNat := by
  have := (nrOf_eq_some _ _).1 (hi.schedule_class (.inl (hi.encrypt_keyValid hp)))
  omega

/-- Any round but the final one: only ST and RND move, and together (R34). -/
theorem State.Inv.round (hi : s.Inv h) (hp : s.phase = .encrypt) {st : Vector Byte 16} {rnd : BitVec 4}
    (hr : rnd.toNat ≤ s.SNR.toNat) (hst : st = stateBefore h.block (rkValue s) rnd.toNat) :
    ({ s with ST := st, RND := rnd } : State).Inv h where
  encrypt_keyValid := hi.encrypt_keyValid
  schedule_class := hi.schedule_class
  expanding := by simp [hp]
  schedule v := (hi.schedule v).congr rfl rfl
  encrypting _ :=
    let ⟨_, past, _⟩ := hi.encrypting hp
    ⟨hr, past, hst⟩
  encrypted := by simp [hp]
  errCode := hi.errCode

theorem State.Inv.encInitial (hi : s.Inv h) (hp : s.phase = .encrypt) (hr : s.RND = 0#4) {k : Vector Word 4}
    (hk : Machine.roundKey s 0 = some k) : ({ s with ST := addRoundKey s.ST k, RND := 1#4 } : State).Inv h := by
  obtain ⟨-, -, hst⟩ := hi.encrypting hp
  rw [hr] at hst
  refine hi.round hp (hi.pos_SNR hp) ?_
  rw [hst, roundKey_value hk]
  rfl

/-- A main round takes the State before round r to the State before round r + 1 (R147, R149). -/
theorem mainRound_stateBefore (block : Vector Byte 16) (W : Nat → Word) {r : Nat} (h : 1 ≤ r) :
    mainRound (stateBefore block W r) (roundKeyOf W r) = stateBefore block W (r + 1) := by
  cases r with
  | zero => omega
  | succ n => rfl

theorem State.Inv.encRound (hi : s.Inv h) (hp : s.phase = .encrypt) (first : 1 ≤ s.RND.toNat)
    (notFinal : s.RND.toNat < s.SNR.toNat) {k : Vector Word 4} (hk : Machine.roundKey s s.RND.toNat = some k) :
    ({ s with ST := mainRound s.ST k, RND := s.RND + 1#4 } : State).Inv h := by
  obtain ⟨-, -, hst⟩ := hi.encrypting hp
  have rnd : (s.RND + 1#4).toNat = s.RND.toNat + 1 := by bv_omega
  refine hi.round hp (by omega) ?_
  rw [rnd, ← mainRound_stateBefore _ _ first, ← hst, roundKey_value hk]

/-- The final round ends the transform (R148, R149). -/
theorem storeState_finalRound_stateBefore (block : Vector Byte 16) (W : Nat → Word) {nr : Nat} (h : 1 ≤ nr) :
    storeState (finalRound (stateBefore block W nr) (roundKeyOf W nr)) = cipher block W nr := by
  cases nr with
  | zero => omega
  | succ n => rfl

theorem State.Inv.encFinal (hi : s.Inv h) (hp : s.phase = .encrypt) (hr : s.RND = s.SNR) {k : Vector Word 4}
    (hk : Machine.roundKey s s.SNR.toNat = some k) : (encryptDone (finalRound s.ST k) s).Inv h := by
  have valid := hi.encrypt_keyValid hp
  obtain ⟨-, -, hst⟩ := hi.encrypting hp
  have dout : columnWords (finalRound s.ST k) = packBlock (cipher h.block (rkValue s) s.SNR.toNat) := by
    rw [← storeState_finalRound_stateBefore _ _ (hi.pos_SNR hp), storeState_eq, packBlock_eq_columnWords,
      hst, hr, roundKey_value hk]
  constructor
  case encrypt_keyValid => simp
  case schedule_class => exact fun _ => hi.schedule_class (.inl valid)
  case expanding => simp
  case schedule => exact fun _ => (hi.schedule valid).congr rfl rfl
  case encrypting => simp
  case encrypted => exact fun _ _ => ⟨rfl, dout⟩
  case errCode => exact hi.errCode

end

theorem Effect.keeps_inv {i : Instr} {h : Latched} {s t : State} (e : Effect i s t) (hi : s.Inv h) :
    t.Inv (h.after s t) := by
  cases e with
  | kept _ _ err => exact hi.kept rfl (by rcases err with rfl | rfl; exacts [hi.errCode, by simp])
  | keycfg | key | din => exact hi.kept rfl hi.errCode
  | rejected _ _ idle valid err =>
    refine .of_idle_of_not_done idle rfl (fun v => ?_) err
    have v : s.KEY_VALID = true := by
      dsimp only at v
      rw [valid] at v
      split at v
      · cases v
      · exact v
    exact ⟨hi.schedule_class (.inl v), (hi.schedule v).congr rfl rfl⟩
  | expandAccepted _ idle rounds => simpa [Latched.after, idle] using .expandAccepted rounds
  | encryptAccepted _ idle valid => simpa [Latched.after, idle] using hi.encryptAccepted valid
  | kexpStep expand operands more =>
    rw [Latched.after_of_busy (by simp [expand]) (by simp [expand])]
    exact hi.kexpStep expand operands more
  | kexpLast expand operands last =>
    rw [Latched.after_of_busy (by simp [expand]) (by simp)]
    exact hi.kexpLast expand operands last
  | encInitial encrypt round key =>
    rw [Latched.after_of_busy (by simp [encrypt]) (by simp [encrypt])]
    exact hi.encInitial encrypt round key
  | encRound encrypt first notFinal key =>
    rw [Latched.after_of_busy (by simp [encrypt]) (by simp [encrypt])]
    exact hi.encRound encrypt first notFinal key
  | encFinal encrypt round key =>
    rw [Latched.after_of_busy (by simp [encrypt]) (by simp)]
    exact hi.encFinal encrypt round key
  | reset => exact .of_idle_of_not_done rfl rfl (by simp) (by simp)

/-- A turn is taken in the state that differs in the turns to come alone. -/
theorem eq_of_nextForm_eq_some {s u : State} {f : Form} (h : nextForm s = some (f, u)) :
    u = { s with turns := u.turns } := by
  cases ht : s.turns with
  | nil =>
    by_cases hp : s.phase = .idle
    · simp [nextForm_of_turns_nil_of_idle ht hp] at h
    · rw [nextForm_of_turns_nil_of_busy ht hp] at h; cases h; rfl
  | cons t rest => rw [nextForm_of_turns_cons ht] at h; cases h; rfl

theorem rejected_next {e : DecodeError} {s t : State} (h : rejected e s = .next t) : t = s := by
  cases e <;> cases h
  rfl

/-- Settles O44: the turn taken touches no register, and its operation keeps the invariants (`Effect.keeps_inv`). -/
theorem stepKeepsInvariants : Obligations.StepKeepsInvariants := by
  intro h s t hi hstep
  have keptTurns {u : State} (hu : u = { s with turns := u.turns }) : u.Inv (h.after s u) := by
    rw [hu]; exact hi.kept rfl hi.errCode
  rcases step_cases s with ⟨-, hs⟩ | ⟨f, u, i, hf, -, hs⟩ | ⟨f, u, e, hf, -, hs⟩ <;> rw [hs] at hstep
  · cases hstep
    exact keptTurns rfl
  · have hu := eq_of_nextForm_eq_some hf
    have hi' : u.Inv h := by
      have := keptTurns hu
      rwa [hi.after_eq (by rw [hu]) (by rw [hu])] at this
    have := (exec_effect hstep).keeps_inv hi'
    rw [hu] at this
    exact this
  · obtain rfl := rejected_next hstep
    exact keptTurns (eq_of_nextForm_eq_some hf)

end Sys2Proof.Machine
end

section
/-! SUPPORT. Which operations write a register (10_state.md R24–R34): each statement is read off from the effects an
operation can have, case by case. -/

namespace Sys2Proof.Machine

/-- Settles O31: of the effects only the final round's and the reset's name DOUT. -/
theorem doutWrittenByFinalStepOnly : Obligations.DoutWrittenByFinalStepOnly := by
  intro i s t h hne
  cases exec_effect h with
  | encFinal => exact .inl rfl
  | reset => exact .inr rfl
  | kept | keycfg | key | din | rejected | kexpStep | kexpLast | encInitial | encRound => exact absurd rfl hne
  | expandAccepted => exact absurd (by simp) hne
  | encryptAccepted => exact absurd rfl hne

/-- Settles O32: of the effects only the two expansion steps', the acceptance's and the reset's name RK. -/
theorem scheduleWrittenByExpansionOnly : Obligations.ScheduleWrittenByExpansionOnly := by
  intro i s t h hne
  cases exec_effect h with
  | kexpStep expand => exact .inl ⟨rfl, expand⟩
  | kexpLast expand => exact .inl ⟨rfl, expand⟩
  | reset => exact .inr (.inl rfl)
  | expandAccepted command idle => exact .inr (.inr ⟨command, idle, by simp⟩)
  | kept | keycfg | key | din | rejected | encryptAccepted | encInitial | encRound | encFinal => exact absurd rfl hne

/-- Settles O33: a rejected or accepted command clears DONE, the last step of either command sets it. -/
theorem doneFollowsCommands : Obligations.DoneFollowsCommands := by
  intro i s t h
  cases exec_effect h with
  | kept host noCommand =>
    refine ⟨by simp [engineOperation_of_hostOperation host], fun c hc => ?_, fun _ _ _ => rfl⟩
    rw [if_neg (fun ⟨hp, hn⟩ => hn (noCommand c hc hp))]
  | keycfg noCommand | key noCommand | din noCommand => simp [engineOperation, noCommand]
  | rejected command notNop idle =>
    simp [engineOperation_of_commandOf command, command, idle, notNop]
  | expandAccepted command idle | encryptAccepted command idle =>
    simp [engineOperation_of_commandOf command, command, idle]
  | kexpStep busy | encInitial busy | encRound busy => simp [engineOperation, commandOf, busy]
  | kexpLast | encFinal | reset => simp [engineOperation, commandOf]

/-- Settles O34: every EXPAND_KEY made while idle clears KEY_VALID, the last expansion step sets it. -/
theorem keyValidFollowsExpansion : Obligations.KeyValidFollowsExpansion := by
  intro i s t h
  cases exec_effect h with
  | kept host noCommand =>
    refine ⟨fun hc hp => absurd (noCommand _ hc hp) (by decide), ?_, fun _ _ _ => rfl⟩
    rintro rfl
    simp [hostOperation] at host
  | keycfg noCommand | key noCommand | din noCommand => simp [noCommand]
  | rejected command notNop idle valid =>
    refine ⟨fun hc _ => ?_, ?_, fun _ _ hn => ?_⟩
    · rw [command, Option.some.injEq] at hc
      simp [valid, hc]
    · rintro rfl
      simp [commandOf] at command
    · rw [command, Option.some.injEq] at hn
      simp only [valid, if_neg fun hc => hn ⟨hc, idle⟩]
  | expandAccepted command idle =>
    refine ⟨fun _ _ => by simp, ?_, fun _ _ hn => absurd ⟨command, idle⟩ hn⟩
    rintro rfl
    simp [commandOf] at command
  | encryptAccepted command =>
    refine ⟨fun hc => by simp [command] at hc, ?_, fun _ _ _ => rfl⟩
    rintro rfl
    simp [commandOf] at command
  | kexpStep expand => simp [commandOf, expand]
  | kexpLast => simp [commandOf]
  | encInitial | encRound | encFinal => simp [commandOf]
  | reset => simp

/-- Settles O35: of the effects only the acceptance's and the reset's name SNK or SNR. -/
theorem scheduleClassLatchedAtAcceptance : Obligations.ScheduleClassLatchedAtAcceptance := by
  intro i s t h
  cases exec_effect h with
  | kept | keycfg | key | din | rejected => exact ⟨fun _ idle expand => by simp [idle] at expand, fun _ _ => ⟨rfl, rfl⟩⟩
  | expandAccepted command idle rounds =>
    exact ⟨fun _ _ _ => by simpa [toNat_nrOf rounds] using rounds,
      fun _ hn => absurd ⟨command, idle, by simp⟩ hn⟩
  | encryptAccepted => exact ⟨by simp, fun _ _ => ⟨rfl, rfl⟩⟩
  | kexpStep | kexpLast | encInitial | encRound | encFinal => exact ⟨by simp [commandOf], fun _ _ => ⟨rfl, rfl⟩⟩
  | reset => simp [commandOf]

/-- Settles O36: the two acceptances leave IDLE, the last step of either command returns to it. -/
theorem phaseChanges : Obligations.PhaseChanges := by
  intro i s t h hne
  cases exec_effect h with
  | expandAccepted command idle => exact .inl ⟨idle, by simp, command⟩
  | encryptAccepted command idle => exact .inr (.inl ⟨idle, rfl, command⟩)
  | kexpLast expand => exact .inr (.inr (.inl ⟨expand, rfl, rfl⟩))
  | encFinal encrypt => exact .inr (.inr (.inr (.inl ⟨encrypt, rfl, rfl⟩)))
  | reset => exact .inr (.inr (.inr (.inr rfl)))
  | kept | keycfg | key | din | rejected | kexpStep | encInitial | encRound => exact absurd rfl hne

/-- Settles O38: the encryption's effects alone name ST and RND, the expansion's alone KI. -/
theorem hiddenStateWrittenByItsCommand : Obligations.HiddenStateWrittenByItsCommand := by
  intro i s t h hr
  cases exec_effect h with
  | kept | keycfg | key | din | rejected => exact ⟨.inl ⟨rfl, rfl⟩, .inl rfl⟩
  | expandAccepted command idle => exact ⟨.inl (by simp), .inr (.inr ⟨command, idle, by simp⟩)⟩
  | encryptAccepted command idle => exact ⟨.inr (.inr (.inr (.inr ⟨command, idle, rfl⟩))), .inl rfl⟩
  | kexpStep | kexpLast => exact ⟨.inl ⟨rfl, rfl⟩, .inr (.inl rfl)⟩
  | encInitial => exact ⟨.inr (.inl rfl), .inl rfl⟩
  | encRound => exact ⟨.inr (.inr (.inl rfl)), .inl rfl⟩
  | encFinal => exact ⟨.inr (.inr (.inr (.inl rfl))), .inl rfl⟩
  | reset => exact absurd rfl hr

/-! The inputs: KEYCFG, KEY and DIN (R21–R23). -/

section
variable {i : Instr} {s t : State} {a : Offset} {v : Word}

theorem exec_wr_keycfg (hp : s.phase = .idle) : exec (.wr 0x008#12 v) s = .next (writeKeycfg v s) := by
  rw [exec_wr s _ v (by decide), show regAt 0x008#12 = .keycfg by decide, writeReg, whenIdle_idle _ _ hp]

theorem exec_wr_key {j : Fin 8} (ha : a.toNat = 0x010 + 4 * j.val) (hp : s.phase = .idle) :
    exec (.wr a v) s = .next (writeKey j v s) := by
  rw [exec_wr s a v (by omega), regAt_key a j ha, writeReg, whenIdle_idle _ _ hp]

theorem exec_wr_din {j : Fin 4} (ha : a.toNat = 0x030 + 4 * j.val) (hp : s.phase = .idle) :
    exec (.wr a v) s = .next (writeDin j v s) := by
  rw [exec_wr s a v (by omega), regAt_din a j ha, writeReg, whenIdle_idle _ _ hp]

theorem Effect.keycfg_unchanged (e : Effect i s t) (hr : i ≠ .reset)
    (hn : ¬ (s.phase = .idle ∧ ∃ v, i = .wr 0x008#12 v)) :
    t.KEYCFG_NK = s.KEYCFG_NK ∧ t.KEYCFG_KEYLEN = s.KEYCFG_KEYLEN := by
  cases e with
  | @keycfg _ a v _ idle addr =>
    obtain rfl : a = 0x008#12 := BitVec.eq_of_toNat_eq addr
    exact absurd ⟨idle, v, rfl⟩ hn
  | reset => exact absurd rfl hr
  | _ => simp

theorem Effect.key_unchanged (e : Effect i s t) (hr : i ≠ .reset) (j : Fin 8)
    (hn : ¬ (s.phase = .idle ∧ ∃ addr v, i = .wr addr v ∧ addr.toNat = 0x010 + 4 * j.val)) : t.KEY[j] = s.KEY[j] := by
  cases e with
  | @key _ j' _ _ _ idle addr =>
    have ne : j'.val ≠ j.val := fun he => hn ⟨idle, _, _, rfl, by omega⟩
    simp [ne]
  | reset => exact absurd rfl hr
  | _ => simp

theorem Effect.din_unchanged (e : Effect i s t) (hr : i ≠ .reset) (j : Fin 4)
    (hn : ¬ (s.phase = .idle ∧ ∃ addr v, i = .wr addr v ∧ addr.toNat = 0x030 + 4 * j.val)) : t.DIN[j] = s.DIN[j] := by
  cases e with
  | @din _ j' _ _ _ idle addr =>
    have ne : j'.val ≠ j.val := fun he => hn ⟨idle, _, _, rfl, by omega⟩
    simp [ne]
  | reset => exact absurd rfl hr
  | _ => simp

end

/-- Settles O37: what the three writes leave, and that no other effect but the reset's names an input. -/
theorem inputsWrittenByHostOnly : Obligations.InputsWrittenByHostOnly := by
  intro i s t h
  have e := exec_effect h
  refine ⟨?keycfg, e.keycfg_unchanged, fun j => ⟨?key, fun hr => e.key_unchanged hr j⟩,
    fun j => ⟨?din, fun hr => e.din_unchanged hr j⟩⟩
  case keycfg =>
    rintro v rfl hp
    cases (exec_wr_keycfg hp).symm.trans h
    exact ⟨rfl, rfl⟩
  case key =>
    rintro a v rfl ha hp
    cases (exec_wr_key ha hp).symm.trans h
    simp
  case din =>
    rintro a v rfl ha hp
    cases (exec_wr_din ha hp).symm.trans h
    simp

/-- An accepted EXPAND_KEY copies KEYj for j < NK only (R22, R177). -/
theorem copyKey_congr {key key' : Vector Word 8} {nk : Nat} (h : ∀ j : Fin 8, j.val < nk → key'[j] = key[j])
    (rk : Vector (Option Word) 60) : copyKey key' nk rk = copyKey key nk rk := by
  ext i hi : 1
  simp only [copyKey, Vector.getElem_ofFn]
  split
  · split
    · rw [show key'[i] = key[i] from h ⟨i, ‹_›⟩ ‹_›]
    · rfl
  · rfl

theorem expandKeyIdle_key_congr {s : State} {key : Vector Word 8}
    (h : ∀ j : Fin 8, j.val < s.KEYCFG_NK.toNat → key[j] = s.KEY[j]) :
    expandKeyIdle { s with KEY := key } = { expandKeyIdle s with KEY := key } := by
  rcases expandKeyIdle_cases s with ⟨hn, ht⟩ | ⟨nr, hn, hl, ht⟩ | ⟨nr, hn, hl, ht⟩ <;> rw [ht]
  · simp [expandKeyIdle, hn, raise, ErrCode.code]
  · simp [expandKeyIdle, hn, hl, raise, ErrCode.code]
  · simp [expandKeyIdle, hn, hl, expandAccepted, copyKey_congr h]

/-- Settles O41: the acceptance's copy of the key is the one place where EXPAND_KEY reads KEY. -/
theorem upperKeyRegistersIgnored : Obligations.UpperKeyRegistersIgnored := by
  intro s key h
  refine ⟨_, rfl, ?_⟩
  simp only [exec, execExpandKey, Host.Outcome.next.injEq]
  by_cases hp : s.phase = .idle
  · rw [whenIdle_idle _ _ hp, whenIdle_idle _ _ (by exact hp), expandKeyIdle_key_congr h]
  · rw [whenIdle_busy _ _ hp, whenIdle_busy _ _ (by exact hp)]

end Sys2Proof.Machine
end

section
/-! SUPPORT. What STATUS and KEYCFG read, field by field and at their reserved bits (10_state.md R26, R36). -/

namespace Sys2Proof.Machine

theorem exec_rd_status (s : State) : exec (.rd 0x004#12) s = .next { s with reads := statusWord s :: s.reads } := rfl

theorem exec_wr_status (s : State) (v : Word) : exec (.wr 0x004#12 v) s = .next s := by
  rw [exec_wr s _ v (by decide), show regAt 0x004#12 = .status by decide, writeReg]

section
variable (s : State)

theorem statusWord_phase : (statusWord s).toNat / 2 ^ 4 % 4 = (phaseCode s.phase).toNat :=
  field_of_bits (statusWord s) 4 2 _ fun i hi => by rw [getLsbD_statusWord]; interval_cases i <;> rfl

theorem statusWord_err : (statusWord s).toNat / 2 ^ 8 % 8 = s.ERR.toNat :=
  field_of_bits (statusWord s) 8 3 _ fun i hi => by rw [getLsbD_statusWord]; interval_cases i <;> rfl

theorem statusWord_snr : (statusWord s).toNat / 2 ^ 16 % 16 = s.SNR.toNat :=
  field_of_bits (statusWord s) 16 4 _ fun i hi => by rw [getLsbD_statusWord]; interval_cases i <;> rfl

theorem statusWord_snk : (statusWord s).toNat / 2 ^ 24 % 16 = s.SNK.toNat :=
  field_of_bits (statusWord s) 24 4 _ fun i hi => by rw [getLsbD_statusWord]; interval_cases i <;> rfl

/-- The reserved bits of STATUS (R26, R36). -/
def statusReserved (i : Nat) : Prop := i = 3 ∨ i = 6 ∨ i = 7 ∨ (11 ≤ i ∧ i < 16) ∨ (20 ≤ i ∧ i < 24) ∨ 28 ≤ i

theorem getLsbD_statusWord_reserved {i : Nat} (h : statusReserved i) : (statusWord s).getLsbD i = false := by
  rw [getLsbD_statusWord]
  rcases h with rfl | rfl | rfl | h | h | h
  · rfl
  · rfl
  · rfl
  · iterate 7 rw [if_neg (by omega)]
    rw [if_pos (by omega)]
  · iterate 9 rw [if_neg (by omega)]
    rw [if_pos (by omega)]
  · iterate 11 rw [if_neg (by omega)]

/-- A field of reserved bits alone reads 0. -/
theorem statusWord_reserved_field (lo n : Nat) (h : ∀ i, i < n → statusReserved (lo + i)) :
    (statusWord s).toNat / 2 ^ lo % 2 ^ n = 0 := by
  simpa using field_of_bits (statusWord s) lo n 0#n fun i hi => by simp [getLsbD_statusWord_reserved s (h i hi)]

end

/-- Settles O10: each field by its bits in `getLsbD_statusWord`; a write to STATUS reaches no register. -/
theorem statusLayout : Obligations.StatusLayout := by
  refine ⟨fun s => ⟨statusWord s, exec_rd_status s, ?busy, ?done, ?keyValid, ?bit3, ?phase, ?bits6, statusWord_err s,
    ?bits11, statusWord_snr s, ?bits20, statusWord_snk s, ?bits28⟩, exec_wr_status, by decide⟩
  case busy => rw [getLsbD_statusWord]; cases hp : s.phase <;> simp [busy, hp]
  case done => rw [getLsbD_statusWord]; rfl
  case keyValid => rw [getLsbD_statusWord]; rfl
  case bit3 => rw [getLsbD_statusWord]; rfl
  case phase => rw [statusWord_phase]; cases s.phase <;> rfl
  case bits6 => exact statusWord_reserved_field s 6 2 (by unfold statusReserved; omega)
  case bits11 => exact statusWord_reserved_field s 11 5 (by unfold statusReserved; omega)
  case bits20 => exact statusWord_reserved_field s 20 4 (by unfold statusReserved; omega)
  case bits28 =>
    have := statusWord_reserved_field s 28 4 (by unfold statusReserved; omega)
    omega

theorem and_eq_zero_of_bits (v m : Word) (h : ∀ i, i < 32 → m.getLsbD i = true → v.getLsbD i = false) :
    v &&& m = 0#32 := by
  apply BitVec.eq_of_getLsbD_eq
  intro i hi
  cases hm : m.getLsbD i with
  | false => simp [hm]
  | true => simp [h i hi hm]

/-- The bits that KEYCFG keeps are those of its two fields (R36, R73). -/
theorem keycfg_fields_mask (v : Word) :
    keycfgNk (v &&& 0x00003F0F#32) = keycfgNk v ∧ keycfgKeylen (v &&& 0x00003F0F#32) = keycfgKeylen v := by
  constructor
  · rw [keycfgNk, BitVec.extractLsb'_and, show BitVec.extractLsb' 0 4 0x00003F0F#32 = BitVec.allOnes 4 by decide,
      BitVec.and_allOnes]; rfl
  · rw [keycfgKeylen, BitVec.extractLsb'_and, show BitVec.extractLsb' 8 6 0x00003F0F#32 = BitVec.allOnes 6 by decide,
      BitVec.and_allOnes]; rfl

theorem writeKeycfg_mask (v : Word) : writeKeycfg (v &&& 0x00003F0F#32) = writeKeycfg v := by
  obtain ⟨hn, hl⟩ := keycfg_fields_mask v
  funext s
  rw [writeKeycfg, hn, hl, writeKeycfg]

theorem keycfgWord_reserved (s : State) : keycfgWord s &&& 0xFFFFC0F0#32 = 0#32 := by
  have mask : ∀ i, i < 32 → (0xFFFFC0F0#32).getLsbD i = true → (4 ≤ i ∧ i < 8) ∨ 14 ≤ i := by decide
  apply and_eq_zero_of_bits
  intro i hi hm
  rw [getLsbD_keycfgWord]
  rcases mask i hi hm with h | h
  · rw [if_neg (by omega), if_pos (by omega)]
  · rw [if_neg (by omega), if_neg (by omega), BitVec.getLsbD_of_ge _ _ (by omega)]

theorem statusWord_reserved (s : State) : statusWord s &&& 0xF0F0F8C8#32 = 0#32 := by
  have mask : ∀ i, i < 32 → (0xF0F0F8C8#32).getLsbD i = true → statusReserved i := by
    unfold statusReserved; decide
  exact and_eq_zero_of_bits _ _ fun i hi hm => getLsbD_statusWord_reserved s (mask i hi hm)

theorem readAt_keycfg (s : State) : readAt 0x008#12 s = some (keycfgWord s) := rfl

theorem readAt_status (s : State) : readAt 0x004#12 s = some (statusWord s) := rfl

/-- Settles O15: the KEYCFG write takes two fields of the value, and neither word has a field at a reserved bit. -/
theorem reservedBits : Obligations.ReservedBits := by
  refine ⟨fun s v => ?write, fun s v h => ?keycfg, fun s v h => ?status⟩
  case write =>
    rw [exec_wr s _ v (by decide), exec_wr s _ _ (by decide), show regAt 0x008#12 = .keycfg by decide]
    simp only [writeReg, writeKeycfg_mask]
  case keycfg =>
    rw [readAt_keycfg] at h
    cases h
    exact keycfgWord_reserved s
  case status =>
    rw [readAt_status] at h
    cases h
    exact statusWord_reserved s

end Sys2Proof.Machine
end

section
/-! SUPPORT. The window and its transactions (20_memory.md R50, R53, R57): where the window sits, which transactions are
refused, which writes reach a register, and what repeating one does. -/

namespace Sys2Proof.Machine

/-- Settles O9: the window's 4 KiB are exactly the offsets of 12 bits, wherever the base lies. -/
theorem windowPlacement : Obligations.WindowPlacement := by
  refine ⟨fun addr => ?inside, fun a h => ?outside⟩
  case inside =>
    have := addr.isLt
    rw [windowOffset, hostAddress, if_pos (by omega), Nat.add_sub_cancel_left, BitVec.ofNat_toNat, BitVec.setWidth_eq]
  case outside => rw [windowOffset, if_neg (by omega)]

/-! Transactions outside the interface (R57). -/

theorem decodeBus_wrongSize {size : Nat} (h : size ≠ 32) (w : BitVec 45) : decodeBus size w = .error .wrongSize := by
  simp [decodeBus, h]

theorem decodeBus_misaligned {w : BitVec 45} (h : w.toNat / 2 ^ 32 % 4 ≠ 0) : decodeBus 32 w = .error .misaligned := by
  have hn : ¬ aligned (busAddr w) = true := mt (aligned_busAddr_iff w).1 h
  simp [decodeBus, hn]

theorem step_of_turns_cons_error {s : State} {t : Turn} {rest : List Turn} {e : DecodeError} (h : s.turns = t :: rest)
    (hd : decode (formOf t s) = .error e) : step s = rejected e { s with turns := rest } := by
  simp [step, nextForm_of_turns_cons h, hd]

section
variable (s : State) {a : Offset}

theorem exec_rd_misaligned (h : a.toNat % 4 ≠ 0) : exec (.rd a) s = .refused .transactionMisaligned := by
  have hn : ¬ aligned a = true := mt (aligned_iff a).1 h
  simp [exec, execRd, hn]

theorem exec_wr_misaligned (h : a.toNat % 4 ≠ 0) (v : Word) : exec (.wr a v) s = .refused .transactionMisaligned := by
  have hn : ¬ aligned a = true := mt (aligned_iff a).1 h
  simp [exec, execWr, hn]

end

/-- Settles O7: such a word selects no operation, and both of its decoding errors are refusals. -/
theorem transactionsOutsideInterfaceRefused : Obligations.TransactionsOutsideInterfaceRefused := by
  refine ⟨fun s size w rest ht h => ?_, fun s a h => exec_rd_misaligned s h, fun s a v h => exec_wr_misaligned s h v⟩
  by_cases hs : size = 32
  · subst hs
    exact ⟨_, step_of_turns_cons_error ht (decodeBus_misaligned (h.resolve_left (· rfl)))⟩
  · exact ⟨_, step_of_turns_cons_error ht (decodeBus_wrongSize hs w)⟩

/-! Side effects (R53). -/

section
variable {s t : State} {a : Offset} {v : Word}

theorem exec_rd_of_readAt (ha : a.toNat % 4 = 0) (h : readAt a s = some v) : exec (.rd a) s = .next (returnRead v s) := by
  simp [exec, execRd, (aligned_iff a).2 ha, h]

theorem aligned_of_exec_wr (h : exec (.wr a v) s = .next t) : a.toNat % 4 = 0 := by
  by_contra ha
  rw [exec_wr_misaligned s ha] at h
  cases h

theorem writeReg_of_not_writable {r : Reg} (h : r.writable = false) (v : Word) (s : State) : writeReg r v s = s := by
  cases r with
  | ctrl | keycfg | key | din => cases h
  | status | dout | rk | reserved => rfl

/-- The offsets of the writable registers (R52). -/
theorem offset_of_regAt_writable (ha : a.toNat % 4 = 0) (h : (regAt a).writable = true) :
    a.toNat = 0x000 ∨ a.toNat = 0x008 ∨ (0x010 ≤ a.toNat ∧ a.toNat ≤ 0x03C) := by
  rcases regAt_cases a ha with ⟨ho, hr⟩ | ⟨-, hr⟩ | ⟨ho, hr⟩ | ⟨j, ho, hr⟩ | ⟨j, ho, hr⟩ | ⟨j, -, hr⟩ | ⟨j, -, hr⟩ |
    ⟨-, hr⟩ <;> rw [hr] at h
  · exact .inl ho
  · cases h
  · exact .inr (.inl ho)
  · exact .inr (.inr (by omega))
  · exact .inr (.inr (by omega))
  · cases h
  · cases h
  · cases h

theorem writable_of_exec_wr_ne (h : exec (.wr a v) s = .next t) (hne : t ≠ s) : (regAt a).writable = true := by
  rw [exec_wr s a v (aligned_of_exec_wr h)] at h
  cases h
  by_contra hw
  exact hne (writeReg_of_not_writable (Bool.eq_false_iff.2 hw) v s)

theorem writeKey_writeKey (j : Fin 8) : writeKey j v (writeKey j v s) = writeKey j v s := by
  simp [writeKey]

theorem writeDin_writeDin (j : Fin 4) : writeDin j v (writeDin j v s) = writeDin j v s := by
  simp [writeDin]

/-- Writing KEYCFG, KEYj or DINj again while idle leaves the value it left before. -/
theorem exec_wr_repeat (hp : s.phase = .idle) (h0 : a.toNat ≠ 0x000) (h : exec (.wr a v) s = .next t) :
    exec (.wr a v) t = .next t := by
  have noCommand : commandOf (.wr a v) = none := if_neg fun ha => h0 (by rw [ha]; rfl)
  rcases exec_wr_next h noCommand with rfl | ⟨hb, -⟩ | ⟨-, ha, rfl⟩ | ⟨-, j, ha, rfl⟩ | ⟨-, j, ha, rfl⟩
  · exact h
  · exact absurd hp hb
  · obtain rfl : a = 0x008#12 := BitVec.eq_of_toNat_eq ha
    exact exec_wr_keycfg hp
  · rw [exec_wr_key ha (by exact hp), writeKey_writeKey]
  · rw [exec_wr_din ha (by exact hp), writeDin_writeDin]

end

/-- Settles O12: the register map leaves four kinds of register a write can reach; of these CTRL alone can tell a
repeated write from the first, as an EXPAND_KEY that starts an expansion and is then dropped with ERR = BUSY. -/
theorem sideEffectsOfTransactions : Obligations.SideEffectsOfTransactions := by
  refine ⟨fun s a ha hr => ⟨?readReserved, fun v => ?writeReserved⟩, fun s t a h => ?read, fun s t a v h hne => ?write,
    fun s t a v hp h0 h => exec_wr_repeat hp h0 h, ?repeatCtrl⟩
  case readReserved => exact exec_rd_of_readAt ha (by rw [readAt, regAt_reserved a ha hr, readReg])
  case writeReserved => rw [exec_wr s a v ha, regAt_reserved a ha hr, writeReg]
  case read => obtain ⟨-, ⟨v, -, rfl⟩ | ⟨-, rfl⟩⟩ := exec_rd_next h <;> rfl
  case write => exact offset_of_regAt_writable (aligned_of_exec_wr h) (writable_of_exec_wr_ne h hne)
  case repeatCtrl =>
    have command : commandOf (.wr 0x000#12 0x00000001#32) = some .expandKey := by decide
    refine ⟨{ State.reset with KEYCFG_NK := 4#4, KEYCFG_KEYLEN := 16#6 }, _, _, 0x00000001#32,
      exec_command command _, exec_command command _, fun h => ?_⟩
    exact absurd (congrArg State.ERR h) (by decide)

end Sys2Proof.Machine
end

section
/-! SUPPORT. What the engine's micro-steps read (20_memory.md R62): two states that agree on the sequencer, ST and RK
take the same micro-step. -/

namespace Sys2Proof.Machine

theorem kexpOperands_congr {s u : State} (hRK : u.RK = s.RK) (hSNK : u.SNK = s.SNK) (hSNR : u.SNR = s.SNR)
    (hKI : u.KI = s.KI) : kexpOperands u = kexpOperands s := by
  simp only [kexpOperands, rkWord_congr hRK, hSNK, hSNR, hKI]

/-- The word that completes the schedule ends the command (R181). -/
theorem storeScheduleWord_last {s : State} (w : Word) (h : s.KI.toNat + 1 = 4 * (s.SNR.toNat + 1)) :
    storeScheduleWord w s =
      { s with RK := s.RK.setIfInBounds s.KI.toNat (some w), KI := s.KI + 1#6, phase := .idle, KEY_VALID := true,
               DONE := true } :=
  ((storeScheduleWord_cases w s).resolve_right fun more => more.1 h).2

/-- An earlier word leaves the flags and the phase alone (R181). -/
theorem storeScheduleWord_more {s : State} (w : Word) (h : s.KI.toNat + 1 ≠ 4 * (s.SNR.toNat + 1)) :
    storeScheduleWord w s = { s with RK := s.RK.setIfInBounds s.KI.toNat (some w), KI := s.KI + 1#6 } :=
  ((storeScheduleWord_cases w s).resolve_left fun last => h last.1).2

/-- Settles O40: an operation's guard and operands are the same in both states, so both go on, each by the same
update. -/
theorem engineReadsSequencerOnly : Obligations.EngineReadsSequencerOnly := by
  intro i s u t hi hphase hRK hST hSNK hSNR hKI hRND h
  cases i with
  | kexpStep =>
    obtain ⟨hp, prev, back, ho, rfl⟩ := exec_kexpStep_next.1 h
    refine ⟨_, exec_kexpStep_next.2
      ⟨hphase.trans hp, prev, back, (kexpOperands_congr hRK hSNK hSNR hKI).trans ho, by rw [hKI, hSNK]⟩, ?_⟩
    by_cases last : s.KI.toNat + 1 = 4 * (s.SNR.toNat + 1)
    · rw [storeScheduleWord_last _ last, storeScheduleWord_last _ (by rwa [hKI, hSNR])]
      simp [hRK, hST, hKI, hRND]
    · rw [storeScheduleWord_more _ last, storeScheduleWord_more _ (by rwa [hKI, hSNR])]
      simp [hphase, hRK, hST, hKI, hRND]
  | encInitial =>
    obtain ⟨hp, hr, k, hk, rfl⟩ := exec_encInitial_next.1 h
    refine ⟨_, exec_encInitial_next.2
      ⟨hphase.trans hp, hRND.trans hr, k, (roundKey_congr hRK 0).trans hk, rfl⟩, ?_⟩
    simp [hphase, hRK, hST, hKI]
  | encRound =>
    obtain ⟨hp, hr, k, hk, rfl⟩ := exec_encRound_next.1 h
    refine ⟨_, exec_encRound_next.2
      ⟨hphase.trans hp, by rwa [hRND, hSNR], k, by rwa [hRND, roundKey_congr hRK], rfl⟩, ?_⟩
    simp [hphase, hRK, hST, hKI, hRND]
  | encFinal =>
    obtain ⟨hp, hr, k, hk, rfl⟩ := exec_encFinal_next.1 h
    refine ⟨_, exec_encFinal_next.2
      ⟨hphase.trans hp, by rwa [hRND, hSNR], k, by rwa [hSNR, roundKey_congr hRK], rfl⟩, ?_⟩
    simp [encryptDone, hRK, hST, hKI, hSNR]
  | nop | expandKey | encryptBlock | cmdReserved | wr | rd | reset => cases hi

end Sys2Proof.Machine
end

section
/-! SUPPORT. The encodings (30_encoding.md R70, R71, R77, R80): what an operation, a CTRL value and a transaction word
decode to. -/

namespace Sys2Proof.Machine

/-- Settles O1, by the round trip of each operation. -/
theorem decodeInvertsEncode : Obligations.DecodeInvertsEncode := by
  intro i
  cases i with
  | nop => exact Laws.RoundTrip.nop
  | expandKey => exact Laws.RoundTrip.expandKey
  | encryptBlock => exact Laws.RoundTrip.encryptBlock
  | cmdReserved => exact Laws.RoundTrip.cmdReserved
  | wr addr data => exact Laws.RoundTrip.wr addr data
  | rd addr => exact Laws.RoundTrip.rd addr
  | kexpStep => exact Laws.RoundTrip.kexpStep
  | encInitial => exact Laws.RoundTrip.encInitial
  | encRound => exact Laws.RoundTrip.encRound
  | encFinal => exact Laws.RoundTrip.encFinal
  | reset => exact Laws.RoundTrip.reset

/-- Settles O3: `cmdOf_eq` gives the CMD field as the residue of the value modulo 4. -/
theorem commandDecodeUsesCmdAlone : Obligations.CommandDecodeUsesCmdAlone := by
  intro v
  refine ⟨fun h => ?_, fun h => ?_, fun h => ?_, fun h => ?_⟩ <;> simp [decode, decodeCtrl, cmdOf_eq, h]

/-- Every CTRL value is a command, the one its CMD field names (R71). -/
theorem commandOf_decodeCtrl (v : Word) : commandOf (decodeCtrl v) = some (cmdOf v) := by
  rw [decodeCtrl]
  cases cmdOf v <;> rfl

/-! Transaction words (R77). -/

section
variable {w : BitVec 45}

/-- The mask of a transaction word's bits 33:32 is the one that decides its alignment. -/
theorem aligned_busAddr_iff_and_eq_zero : aligned (busAddr w) = true ↔ w &&& 0x000300000000#45 = 0#45 := by
  have field : w.toNat &&& 0x300000000 = 2 ^ 32 * (w.toNat / 2 ^ 32 % 2 ^ 2) := by
    apply Nat.eq_of_testBit_eq
    intro i
    rw [show 0x300000000 = 2 ^ 32 * (2 ^ 2 - 1) by decide, Nat.testBit_and, Nat.testBit_two_pow_mul,
      Nat.testBit_two_pow_mul, Nat.testBit_mod_two_pow, Nat.testBit_div_two_pow, Nat.testBit_two_pow_sub_one]
    by_cases hi : 32 ≤ i <;> simp [hi, Bool.and_comm]
  rw [aligned_busAddr_iff, ← BitVec.toNat_inj, BitVec.toNat_and]
  simp only [BitVec.toNat_ofNat, Nat.reducePow, Nat.reduceMod] at field ⊢
  omega

theorem decodeBus_aligned (h : aligned (busAddr w) = true) :
    decodeBus 32 w = .ok (if busWrite w then .wr (busAddr w) (busData w) else .rd (busAddr w)) := by
  simp [decodeBus, h]

/-- What the opcode table's BUS mask shows of a word: bit 44 and whether bits 33:32 are 0 (R80). -/
theorem busWrite_and_aligned_of_mask {m : BitVec 45} (h : w &&& 0x100300000000#45 = m)
    (hm : m &&& 0x000300000000#45 = 0#45) :
    busWrite w = m.getLsbD 44 ∧ aligned (busAddr w) = true := by
  subst h
  constructor
  · simp [busWrite]
  · rwa [BitVec.and_assoc, show 0x100300000000#45 &&& 0x000300000000#45 = 0x000300000000#45 by decide,
      ← aligned_busAddr_iff_and_eq_zero] at hm

end

/-- Settles O4: a row's mask fixes bit 44 and the alignment, and the fields are `busAddr` and `busData`. -/
theorem busWordsFollowOpcodeTable : Obligations.BusWordsFollowOpcodeTable := by
  intro w
  rw [← busAddr_eq, ← busData_eq]
  refine ⟨fun h => ?write, fun h => ?read, fun h => ?misaligned⟩
  case write =>
    obtain ⟨write, al⟩ := busWrite_and_aligned_of_mask h (by decide)
    rw [decode, decodeBus_aligned al, if_pos (by rw [write]; decide)]
  case read =>
    obtain ⟨read, al⟩ := busWrite_and_aligned_of_mask h (by decide)
    rw [decode, decodeBus_aligned al, if_neg (by rw [read]; decide)]
  case misaligned =>
    exact decodeBus_misaligned fun al => h (aligned_busAddr_iff_and_eq_zero.1 ((aligned_busAddr_iff w).2 al))

end Sys2Proof.Machine
end

section
/-! SUPPORT. No stop under the invariants of 10_state.md section 7 (R37, R76, R200): a busy sequencer selects a
micro-step that goes on, and so does every host operation inside the interface. -/

namespace Sys2Proof.Machine

/-! The rows of R76 with phase = ENCRYPT. -/

theorem decode_engine_encRound {rnd snr : BitVec 4} (first : 1 ≤ rnd.toNat) (notFinal : rnd.toNat < snr.toNat) :
    decode (.engine .encrypt rnd snr) = .ok .encRound := by
  have nonzero : rnd ≠ 0#4 := by rintro rfl; simp at first
  simp [decode, decodeEngine, nonzero, notFinal]

theorem decode_engine_encFinal {snr : BitVec 4} (nonzero : snr ≠ 0#4) :
    decode (.engine .encrypt snr snr) = .ok .encFinal := by
  simp [decode, decodeEngine, nonzero]

/-- Under the invariants a running encryption selects its next round, which goes on (R182–R184). -/
theorem State.Inv.encrypt_progress {h : Latched} {s : State} (hi : s.Inv h) (hp : s.phase = .encrypt) :
    ∃ i t, decode (.engine .encrypt s.RND s.SNR) = .ok i ∧ engineOperation i = true ∧ exec i s = .next t := by
  obtain ⟨below, -, -⟩ := hi.encrypting hp
  by_cases initial : s.RND = 0#4
  · exact ⟨.encInitial, _, by rw [initial]; rfl, rfl,
      exec_encInitial_next.2 ⟨hp, initial, _, hi.roundKey hp (Nat.zero_le _), rfl⟩⟩
  by_cases final : s.RND = s.SNR
  · exact ⟨.encFinal, _, by rw [final] at initial ⊢; exact decode_engine_encFinal initial, rfl,
      exec_encFinal_next.2 ⟨hp, final, _, hi.roundKey hp le_rfl, rfl⟩⟩
  · have first : 1 ≤ s.RND.toNat := Nat.pos_of_ne_zero fun h0 => initial (BitVec.eq_of_toNat_eq h0)
    have notFinal : s.RND.toNat < s.SNR.toNat := below.lt_of_ne fun he => final (BitVec.eq_of_toNat_eq he)
    exact ⟨.encRound, _, decode_engine_encRound first notFinal, rfl,
      exec_encRound_next.2 ⟨hp, ⟨first, notFinal⟩, _, hi.roundKey hp below, rfl⟩⟩

/-- Under the invariants a busy sequencer selects a micro-step, and the micro-step goes on (R76, R37). -/
theorem State.Inv.engine_progress {h : Latched} {s : State} (hi : s.Inv h) (hp : s.phase ≠ .idle) :
    ∃ i t, decode (.engine s.phase s.RND s.SNR) = .ok i ∧ engineOperation i = true ∧ exec i s = .next t := by
  cases phase : s.phase with
  | idle => exact absurd phase hp
  | expand =>
    obtain ⟨prev, back, operands⟩ := hi.kexpOperands phase
    exact ⟨.kexpStep, _, rfl, rfl, exec_kexpStep_next.2 ⟨phase, prev, back, operands, rfl⟩⟩
  | encrypt => exact hi.encrypt_progress phase

/-- Settles O5: the table's rows one by one, and `State.Inv.engine_progress` for the states that meet the invariants. -/
theorem engineDispatch : Obligations.EngineDispatch := by
  refine ⟨fun _ _ => rfl, fun _ _ => rfl, fun _ => rfl,
    fun _ _ first notFinal => decode_engine_encRound first notFinal, fun _ nonzero => decode_engine_encFinal nonzero,
    fun h s hi hp => ?_⟩
  obtain ⟨i, -, hd, engine, -⟩ := hi.engine_progress hp
  exact ⟨i, hd, engine⟩

/-! What goes on in every state: the host's operations (R170, R171). -/

theorem exec_rd_progress {a : Offset} (ha : aligned a = true) (s : State) : ∃ t, exec (.rd a) s = .next t := by
  cases hr : readAt a s with
  | some v => exact ⟨_, exec_rd_of_readAt ((aligned_iff a).1 ha) hr⟩
  | none => exact ⟨returnAny s, by simp [exec, execRd, ha, hr]⟩

/-- A transaction inside the interface selects an operation that goes on in every state. -/
theorem decodeBus_progress {w : BitVec 45} (ha : aligned (busAddr w) = true) (s : State) :
    ∃ i t, decodeBus 32 w = .ok i ∧ exec i s = .next t := by
  rw [decodeBus_aligned ha]
  cases busWrite w with
  | true => exact ⟨_, _, rfl, exec_wr s _ _ ((aligned_iff _).1 ha)⟩
  | false =>
    obtain ⟨t, ht⟩ := exec_rd_progress ha s
    exact ⟨_, t, rfl, ht⟩

/-- A turn of the engine passes while idle and takes a micro-step while busy (R180). -/
theorem State.Inv.step_engine {h : Latched} {s : State} {rest : List Turn} (hi : s.Inv h)
    (hturns : s.turns = .engine :: rest) : ∃ t, step s = .next t := by
  by_cases hp : s.phase = .idle
  · exact ⟨_, step_of_turns_cons_error hturns (e := .engineIdle) (by rw [formOf, hp]; rfl)⟩
  · have taken : ({ s with turns := rest } : State).Inv h :=
      hi.congr rfl rfl rfl rfl rfl rfl rfl rfl rfl rfl hi.errCode
    obtain ⟨i, t, hd, -, ht⟩ := taken.engine_progress hp
    exact ⟨t, (step_of_turns_cons hturns hd).trans ht⟩

/-- With no turn to come an idle core keeps its state and a busy one takes a micro-step (R180, R213). -/
theorem State.Inv.step_of_turns_nil {h : Latched} {s : State} (hi : s.Inv h) (hturns : s.turns = []) :
    ∃ t, step s = .next t := by
  by_cases hp : s.phase = .idle
  · exact ⟨s, step_of_nextForm_none (nextForm_of_turns_nil_of_idle hturns hp)⟩
  · obtain ⟨i, t, hd, -, ht⟩ := hi.engine_progress hp
    exact ⟨t, (step_of_decode_ok (nextForm_of_turns_nil_of_busy hturns hp) hd).trans ht⟩

/-- Settles O45, by the next turn: only a transaction of another size or a misaligned one has no step. -/
theorem invariantsRuleOutStops : Obligations.InvariantsRuleOutStops := by
  intro h s hi
  cases hturns : s.turns with
  | nil => exact .inl (hi.step_of_turns_nil hturns)
  | cons turn rest =>
    cases turn with
    | ctrl v => exact .inl ⟨_, (step_of_turns_cons hturns rfl).trans (exec_command (commandOf_decodeCtrl v) _)⟩
    | bus size w =>
      by_cases outside : size ≠ 32 ∨ w.toNat / 2 ^ 32 % 4 ≠ 0
      · exact .inr ⟨size, w, rest, rfl, outside,
          transactionsOutsideInterfaceRefused.1 s size w rest hturns outside⟩
      · obtain ⟨rfl, al⟩ : size = 32 ∧ w.toNat / 2 ^ 32 % 4 = 0 := by omega
        obtain ⟨i, t, hd, ht⟩ := decodeBus_progress ((aligned_busAddr_iff w).2 al) { s with turns := rest }
        exact .inl ⟨t, (step_of_turns_cons hturns hd).trans ht⟩
    | engine => exact .inl (hi.step_engine hturns)
    | rst => exact .inl ⟨_, step_of_turns_cons hturns rfl⟩

end Sys2Proof.Machine
end

section
/-! SUPPORT. The KEYCFG values (30_encoding.md R73): what a write leaves to read, and which values EXPAND_KEY
accepts. -/

namespace Sys2Proof.Machine

/-- KEYCFG reads the value written with its reserved bits dropped (R73, R172). -/
theorem keycfgWord_writeKeycfg (v : Word) (s : State) : keycfgWord (writeKeycfg v s) = v &&& 0x00003F0F#32 := by
  have mask : ∀ i, i < 32 → (0x00003F0F#32).getLsbD i = decide (i < 4 ∨ (8 ≤ i ∧ i < 14)) := by decide
  apply BitVec.eq_of_getLsbD_eq
  intro i hi
  rw [getLsbD_keycfgWord, BitVec.getLsbD_and, mask i hi, writeKeycfg_KEYCFG_NK, writeKeycfg_KEYCFG_KEYLEN, keycfgNk,
    keycfgKeylen, BitVec.getLsbD_extractLsb', BitVec.getLsbD_extractLsb']
  split
  case isTrue nk => simp [nk]
  case isFalse notNk =>
    split
    case isTrue gap => simp [notNk, gap]
    case isFalse notGap =>
      rw [show 8 + (i - 8) = i by omega, Bool.and_comm]
      exact congrArg _ (decide_eq_decide.2 (by omega))

/-- KEYCFG as a number: KEYLEN above NK (R21, R170). -/
theorem toNat_keycfgWord (s : State) : (keycfgWord s).toNat = 2 ^ 8 * s.KEYCFG_KEYLEN.toNat + s.KEYCFG_NK.toNat := by
  have := s.KEYCFG_KEYLEN.isLt
  have nk := s.KEYCFG_NK.isLt
  rw [keycfgWord, BitVec.toNat_setWidth, BitVec.toNat_append, ← Nat.shiftLeft_add_eq_or_of_lt nk, BitVec.toNat_append,
    BitVec.toNat_ofNat, Nat.zero_mod, Nat.or_zero, Nat.shiftLeft_eq, Nat.shiftLeft_eq]
  omega

/-- The key classes that have a round count (R123). -/
theorem exists_nrOf_eq_some (n : Nat) : (∃ nr, nrOf n = some nr) ↔ n = 4 ∨ n = 6 ∨ n = 8 := by
  simp [nrOf_eq_some, exists_or]

/-- The class and the length agree for the three legal KEYCFG values and no other (R73, R123). -/
theorem legalKeycfg_iff (s : State) :
    ((∃ nr, nrOf s.KEYCFG_NK.toNat = some nr) ∧ s.KEYCFG_KEYLEN.toNat = 4 * s.KEYCFG_NK.toNat) ↔
      keycfgWord s = 0x00001004#32 ∨ keycfgWord s = 0x00001806#32 ∨ keycfgWord s = 0x00002008#32 := by
  have := s.KEYCFG_NK.isLt
  simp only [exists_nrOf_eq_some, ← BitVec.toNat_inj, toNat_keycfgWord, BitVec.toNat_ofNat]
  omega

/-- EXPAND_KEY while idle starts an expansion exactly for a legal KEYCFG, and is otherwise rejected with error 1 or 2
(R177). -/
theorem expandKeyIdle_legal {s : State} (hp : s.phase = .idle) :
    ((expandKeyIdle s).phase = .expand ↔
      keycfgWord s = 0x00001004#32 ∨ keycfgWord s = 0x00001806#32 ∨ keycfgWord s = 0x00002008#32) ∧
    ((expandKeyIdle s).phase ≠ .expand →
      (expandKeyIdle s).phase = .idle ∧ ((expandKeyIdle s).ERR = 1#3 ∨ (expandKeyIdle s).ERR = 2#3)) := by
  rw [← legalKeycfg_iff]
  rcases expandKeyIdle_cases s with ⟨hn, ht⟩ | ⟨nr, hn, hl, ht⟩ | ⟨nr, hn, hl, ht⟩ <;> rw [ht]
  · simp [hp, hn]
  · simp [hp, hl]
  · simp [hn, hl]

/-- Settles O16: the write leaves `keycfgWord_writeKeycfg`, and EXPAND_KEY judges that word (`expandKeyIdle_legal`). -/
theorem legalKeycfgValues : Obligations.LegalKeycfgValues := by
  intro s v hp
  have idle : (writeKeycfg v s).phase = .idle := hp
  have read := keycfgWord_writeKeycfg v s
  obtain ⟨accepted, rejected⟩ := expandKeyIdle_legal idle
  rw [read] at accepted
  exact ⟨writeKeycfg v s, expandKeyIdle (writeKeycfg v s), exec_wr_keycfg hp,
    congrArg Host.Outcome.next (whenIdle_idle _ _ idle), by rw [readAt_keycfg, read], accepted, rejected⟩

end Sys2Proof.Machine
end

section
/-! SUPPORT. GF(2^8) and the S-box (40_gf_sbox.md R100–R106): xtime and the field product by a constant are additive, so
eight bytes decide their laws; the table's inverses are read off by undoing the generator's affine map. -/

namespace Sys2Proof.Machine

/-! The word functions (R106, R120, R122). -/

@[simp] theorem subWord_pack (a b c d : Byte) :
    subWord (pack a b c d) = pack (sbox a) (sbox b) (sbox c) (sbox d) := by
  simp [subWord]

@[simp] theorem rotWord_pack (a b c d : Byte) : rotWord (pack a b c d) = pack b c d a := by
  apply BitVec.eq_of_getLsbD_eq
  intro i hi
  rw [rotWord, BitVec.getLsbD_append, BitVec.getLsbD_extractLsb', BitVec.getLsbD_extractLsb']
  by_cases last : i < 8
  · simp [getLsbD_pack, last, show ¬ 24 + i < 8 by omega, show ¬ 24 + i < 16 by omega]
  · simp [getLsbD_pack, last, Nat.sub_sub, show i - 8 < 24 by omega, show i - 8 < 8 ↔ i < 16 by omega,
      show i - 8 < 16 ↔ i < 24 by omega]

theorem rotWord_four_times (v : Word) : rotWord (rotWord (rotWord (rotWord v))) = v := by
  rw [← pack_lanes v]
  simp only [rotWord_pack]

theorem lane_xor (k : Fin 4) (v w : Word) : lane k (v ^^^ w) = lane k v ^^^ lane k w :=
  BitVec.extractLsb'_xor

/-- Settles O52: both functions by what they make of a packed Word, and a lane is a slice of bits. -/
theorem wordFunctionsByLane : Obligations.WordFunctionsByLane :=
  ⟨subWord_pack, rotWord_pack, rotWord_four_times, fun v w k => lane_xor k v w⟩

/-! xtime (R100, R102). -/

/-- The step of the product, of its reduction and of xtime: XOR with a constant where a bit is set is additive. -/
theorem ite_xor_eq_xor_ite {n : Nat} (p q k : BitVec n) (b c : Bool) :
    (if b ^^ c then (p ^^^ q) ^^^ k else p ^^^ q) = (if b then p ^^^ k else p) ^^^ (if c then q ^^^ k else q) := by
  cases b <;> cases c
  · rfl
  · exact BitVec.xor_assoc p q k
  · exact show (p ^^^ q) ^^^ k = (p ^^^ k) ^^^ q by ac_rfl
  · have cancel : (p ^^^ k) ^^^ (q ^^^ k) = (p ^^^ q) ^^^ (k ^^^ k) := by ac_rfl
    simpa using cancel.symm

theorem xtime_xor (a b : Byte) : xtime (a ^^^ b) = xtime a ^^^ xtime b := by
  rw [xtime, BitVec.getLsbD_xor, BitVec.shiftLeft_xor_distrib, ite_xor_eq_xor_ite, xtime, xtime]

theorem polyMul_xor (a b c : Byte) : polyMul a (b ^^^ c) = polyMul a b ^^^ polyMul a c :=
  List.foldl_hom₂ _ (· ^^^ ·) _ _ _ 0#16 0#16 fun p q i => by rw [BitVec.getLsbD_xor, ite_xor_eq_xor_ite]

theorem gfMul_xor (a b c : Byte) : gfMul a (b ^^^ c) = gfMul a b ^^^ gfMul a c := by
  rw [gfMul, polyMul_xor, gfMul, gfMul, ← BitVec.setWidth_xor]
  exact congrArg _ (List.foldl_hom₂ _ (· ^^^ ·) _ _ _ _ _ fun p q i => by
    rw [BitVec.getLsbD_xor, ite_xor_eq_xor_ite])

/-- Two additive functions of a byte that agree on the powers of x agree: by the byte's highest bit. -/
theorem eq_of_xor_of_basis {f g : Byte → Byte} (hf : ∀ a b, f (a ^^^ b) = f a ^^^ f b)
    (hg : ∀ a b, g (a ^^^ b) = g a ^^^ g b) (basis : ∀ i : Fin 8, f (1#8 <<< i.val) = g (1#8 <<< i.val)) (x : Byte) :
    f x = g x := by
  have upTo : ∀ n ≤ 8, ∀ y : Byte, (∀ i, n ≤ i → y.getLsbD i = false) → f y = g y := by
    intro n
    induction n with
    | zero =>
      intro _ y hy
      have zero : y = 0#8 ^^^ 0#8 := BitVec.eq_of_getLsbD_eq fun i _ => by simpa using hy i
      rw [zero, hf, hg, BitVec.xor_self, BitVec.xor_self]
    | succ n ih =>
      intro hn y hy
      have below : ∀ z : Byte, z.getLsbD n = false → (∀ i, n + 1 ≤ i → z.getLsbD i = false) → f z = g z :=
        fun z top above => ih (by omega) z fun i hi => hi.eq_or_lt.elim (fun h => h ▸ top) (above i)
      cases bit : y.getLsbD n with
      | false => exact below y bit hy
      | true =>
        have rest : f (y ^^^ 1#8 <<< n) = g (y ^^^ 1#8 <<< n) :=
          below _ (by simp [bit]; omega) fun i hi => by simp [hy i hi]; omega
        have sum : y = (y ^^^ 1#8 <<< n) ^^^ 1#8 <<< n := by simp
        rw [sum, hf, hg, rest, basis ⟨n, by omega⟩]
  exact upTo 8 le_rfl x fun i hi => BitVec.getLsbD_of_ge x i hi

theorem xtime_eq_gfMul (x : Byte) : xtime x = gfMul 2#8 x :=
  eq_of_xor_of_basis xtime_xor (gfMul_xor 2#8) (by decide) x

theorem xor_xtime_eq_gfMul (x : Byte) : x ^^^ xtime x = gfMul 3#8 x :=
  eq_of_xor_of_basis (f := fun x => x ^^^ xtime x) (fun a b => by rw [xtime_xor]; ac_rfl) (gfMul_xor 3#8)
    (by decide) x

/-- A reduced double is odd, and a double that is not reduced has lost no bit. -/
theorem eq_zero_of_xtime_eq_zero {x : Byte} (h : xtime x = 0#8) : x = 0#8 := by
  cases high : x.getLsbD 7 with
  | true =>
    rw [xtime, high] at h
    simpa using congrArg (·.getLsbD 0) h
  | false =>
    rw [xtime, high] at h
    ext i hi
    obtain rfl | low : i = 7 ∨ i + 1 < 8 := by omega
    · simpa using high
    · simpa [low] using congrArg (·.getLsbD (i + 1)) h

theorem xtime_injective : Function.Injective xtime := fun x y h =>
  BitVec.xor_eq_zero_iff.1 (eq_zero_of_xtime_eq_zero (by rw [xtime_xor, h, BitVec.xor_self]))

/-- Settles O50: the product laws hold on the powers of x, and an injective map of the bytes is onto. -/
theorem xtimeLaws : Obligations.XtimeLaws :=
  ⟨xtime_xor, xtime_eq_gfMul, xor_xtime_eq_gfMul, by decide, fun _ => eq_zero_of_xtime_eq_zero,
    fun _ _ h => xtime_injective h, Finite.surjective_of_injective xtime_injective⟩

/-! The S-box and its generator (R103–R105). -/

/-- The inverse of the affine map A (`affine_affineInverse`). -/
def affineInverse (b : Byte) : Byte := b.rotateLeft 1 ^^^ b.rotateLeft 3 ^^^ b.rotateLeft 6 ^^^ 0x05#8

theorem affine_affineInverse (b : Byte) : affine (affineInverse b) = b := by revert b; decide

/-- `inv(x)` of R105, read from the table by undoing A; `gfMul_gfInverse` says that it is the inverse in the field. -/
def gfInverse (x : Byte) : Byte := affineInverse (sbox x)

theorem sbox_eq_affine_gfInverse (x : Byte) : sbox x = affine (gfInverse x) := (affine_affineInverse (sbox x)).symm

theorem gfInverse_zero : gfInverse 0#8 = 0#8 := by decide

/-- The 255 products, each carried out. -/
theorem gfMul_gfInverse : ∀ x : Byte, x ≠ 0#8 → gfMul x (gfInverse x) = 1#8 := by decide

theorem gfInverse_involutive : Function.Involutive gfInverse := by
  unfold Function.Involutive
  decide

theorem sbox_injective : Function.Injective sbox :=
  Function.Injective.of_comp (f := affineInverse) gfInverse_involutive.injective

theorem sbox_ne_self : ∀ x : Byte, sbox x ≠ x := by decide

/-- Settles O51: the table's entry is A of `gfInverse`, and a map that A⁻¹ makes an involution is injective. -/
theorem sboxIsAffineInverse : Obligations.SboxIsAffineInverse :=
  ⟨by rw [sbox_eq_affine_gfInverse, gfInverse_zero],
    fun x hx => ⟨gfInverse x, gfMul_gfInverse x hx, sbox_eq_affine_gfInverse x⟩,
    fun _ _ h => sbox_injective h, sbox_ne_self⟩

end Sys2Proof.Machine
end

section
/-! SUPPORT. The key schedule's own rules (41_key_schedule.md R121, R124, R125): the round constants as packed Words,
what KeyStep is in each of its branches, and what the whole expansion is for each key class. -/

namespace Sys2Proof.Machine

/-! Rcon (R121). -/

@[simp] theorem doubled_succ (n : Nat) : doubled (n + 1) = xtime (doubled n) := rfl

/-- A byte in lane 0 and zeros in the other three. -/
theorem append_zero_eq_pack (r : Byte) : r ++ 0#24 = pack r 0#8 0#8 0#8 := by
  apply BitVec.eq_of_getLsbD_eq
  intro i hi
  rw [getLsbD_pack, BitVec.getLsbD_append]
  by_cases low : i < 24
  · simp [low]
  · simp [low, show ¬ i < 8 by omega, show ¬ i < 16 by omega]

theorem rcon_succ (n : Nat) : rcon (n + 1) = pack (doubled n) 0#8 0#8 0#8 := append_zero_eq_pack (doubled n)

/-- Settles O53: a constant is a doubling of 0x01 in lane 0, and the ten values are computed. -/
theorem roundConstants : Obligations.RoundConstants := by
  refine ⟨fun k one_le _ => ?_, by decide⟩
  obtain ⟨n, rfl⟩ := Nat.exists_eq_add_of_le' one_le
  exact ⟨doubled n, rcon_succ n, by rw [rcon_succ, doubled_succ]⟩

/-! KeyStep (R124). -/

section
variable {i nk : Nat} (W : Nat → Word)

/-- The first branch: RotWord, SubWord and Rcon. -/
theorem keyStep_of_mod_eq_zero (h : i % nk = 0) :
    keyStep W i nk = W (i - nk) ^^^ (subWord (rotWord (W (i - 1))) ^^^ rcon (i / nk)) := by
  rw [keyStep, keyStepOn, if_pos h]

/-- The second branch: SubWord alone. -/
theorem keyStep_of_mod_eq_four (hnk : 6 < nk) (h : i % nk = 4) :
    keyStep W i nk = W (i - nk) ^^^ subWord (W (i - 1)) := by
  rw [keyStep, keyStepOn, if_neg (by omega), if_pos ⟨hnk, h⟩]

/-- The third branch: the word before it as it stands. -/
theorem keyStep_of_neither (h0 : i % nk ≠ 0) (h4 : ¬ (6 < nk ∧ i % nk = 4)) :
    keyStep W i nk = W (i - nk) ^^^ W (i - 1) := by
  rw [keyStep, keyStepOn, if_neg h0, if_neg h4]

end

/-- Settles O54: among the key classes, `6 < nk` is `nk = 8`. -/
theorem keyStepBranches : Obligations.KeyStepBranches := by
  intro W i nk nr hclass _ _
  have hwide : 6 < nk ↔ nk = 8 := by omega
  refine ⟨keyStep_of_mod_eq_zero W, fun _ h8 => keyStep_of_mod_eq_four W (hwide.2 h8), fun h0 h4 => ?_⟩
  exact keyStep_of_neither W h0 (by rwa [hwide])

/-! KeyExpansion (R125). -/

/-- A key class expands to the schedule prefix of 4·(Nr+1) words. -/
theorem keyExpansion_of_nrOf {nk nr : Nat} (key : Nat → Byte) (h : nrOf nk = some nr) :
    keyExpansion key nk = some (schedulePrefix key nk (4 * (nr + 1))) := by
  rw [keyExpansion, h, Option.map_some]

/-- Settles O55: the expansion is a schedule prefix, whose words are the key's first and KeyStep's after them. -/
theorem keyExpansionByItsLoops : Obligations.KeyExpansionByItsLoops := by
  intro key nk nr hclass
  refine ⟨schedulePrefix key nk (4 * (nr + 1)), keyExpansion_of_nrOf key ((nrOf_eq_some nk nr).2 hclass),
    schedulePrefix_length key nk _, fun i hi => ?_, fun i hge hlt => ?_⟩
  · exact schedulePrefix_key key nk (by omega) hi
  · exact schedulePrefix_step key nk hlt (by omega) (by omega)

end Sys2Proof.Machine
end

section
/-! SUPPORT. The round engine by its cells (42_cipher_rounds.md R140–R149): what each sub-operation leaves in row r,
column c of the State; equations of whole States follow cell by cell. -/

namespace Sys2Proof.Machine

@[simp] theorem cell_subBytes (st : Vector Byte 16) (r c : Fin 4) : cell (subBytes st) r c = sbox (cell st r c) :=
  cell_ofCells _ r c

@[simp] theorem cell_shiftRows (st : Vector Byte 16) (r c : Fin 4) : cell (shiftRows st) r c = cell st r (c + r) :=
  cell_ofCells _ r c

@[simp] theorem cell_mixColumns (st : Vector Byte 16) (r c : Fin 4) :
    cell (mixColumns st) r c = mixColumn (cell st 0 c) (cell st 1 c) (cell st 2 c) (cell st 3 c) r :=
  cell_ofCells _ r c

@[simp] theorem cell_addRoundKey (st : Vector Byte 16) (k : Vector Word 4) (r c : Fin 4) :
    cell (addRoundKey st k) r c = cell st r c ^^^ lane r k[c] :=
  cell_ofCells _ r c

/-! The block mappings (R140, R141). -/

/-- Settles O56: both mappings keep the bytes in their order, and `i mod 4 + 4·(i div 4) = i`. -/
theorem blockMappings : Obligations.BlockMappings := by
  refine ⟨fun x => ?_, fun x i => ?_, fun st i j => ?_, fun din r c => ?_⟩
  · rw [loadState_eq, storeState_eq]
  · rw [loadState_eq]
    simp only [cell, Nat.mod_add_div, Fin.getElem_fin]
  · simp only [storeState_eq, cell, Nat.add_comm]
  · rw [loadState_eq, cell_inputBytes]

/-! SubBytes and ShiftRows (R142, R143). -/

/-- A row has four columns: four rotations by r go round it r times. -/
theorem shiftRows_four_times (st : Vector Byte 16) : shiftRows (shiftRows (shiftRows (shiftRows st))) = st := by
  refine cells_ext fun r c => ?_
  have round : c + r + r + r + r = c := by omega
  simp only [cell_shiftRows, round]

/-- One replaces the bytes and the other moves them. -/
theorem subBytes_shiftRows (st : Vector Byte 16) : subBytes (shiftRows st) = shiftRows (subBytes st) :=
  cells_ext fun r c => by simp only [cell_subBytes, cell_shiftRows]

/-- Settles O57: cell by cell; the sum of two columns is taken mod 4. -/
theorem subBytesAndShiftRows : Obligations.SubBytesAndShiftRows :=
  ⟨cell_subBytes, cell_shiftRows, shiftRows_four_times, subBytes_shiftRows⟩

/-! MixColumns (R144, R145). -/

/-- Settles O58: `xtime` is the product by 2 and `x ⊕ xtime x` the product by 3. -/
theorem mixColumnsIsCirculant : Obligations.MixColumnsIsCirculant := by
  intro st c
  refine ⟨?_, ?_, ?_, ?_⟩ <;>
    simp only [cell_mixColumns, mixColumn, ← xtime_eq_gfMul, ← xor_xtime_eq_gfMul, BitVec.xor_assoc]

/-! AddRoundKey (R146, R126). -/

/-- Column c of round key r is word 4r + c of the schedule (R126). -/
theorem getElem_roundKeyOf (W : Nat → Word) (r : Nat) (c : Fin 4) : (roundKeyOf W r)[c] = W (4 * r + c.val) := by
  fin_cases c <;> rfl

@[simp] theorem lane_zero_word (k : Fin 4) : lane k 0#32 = 0#8 := BitVec.extractLsb'_zero

theorem addRoundKey_zero (st : Vector Byte 16) : addRoundKey st #v[0#32, 0#32, 0#32, 0#32] = st := by
  refine cells_ext fun r c => ?_
  have zero : (#v[0#32, 0#32, 0#32, 0#32] : Vector Word 4)[c] = 0#32 := by fin_cases c <;> rfl
  rw [cell_addRoundKey, zero, lane_zero_word, BitVec.xor_zero]

theorem addRoundKey_addRoundKey (st : Vector Byte 16) (k : Vector Word 4) :
    addRoundKey (addRoundKey st k) k = st :=
  cells_ext fun r c => by
    rw [cell_addRoundKey, cell_addRoundKey, BitVec.xor_assoc, BitVec.xor_self, BitVec.xor_zero]

/-- Settles O59: cell by cell, where XOR with a byte undoes itself. -/
theorem addRoundKeyLaws : Obligations.AddRoundKeyLaws :=
  ⟨fun st W r j c => by rw [cell_addRoundKey, getElem_roundKeyOf], addRoundKey_zero, addRoundKey_addRoundKey⟩

/-! Cipher (R149). -/

/-- The recursion over the main rounds is the loop over them, for every number of rounds. -/
theorem afterRounds_eq_foldl (inp : Vector Byte 16) (W : Nat → Word) (n : Nat) :
    afterRounds inp W n =
      (List.range n).foldl (fun st r => mainRound st (roundKeyOf W (r + 1)))
        (addRoundKey (loadState inp) (roundKeyOf W 0)) := by
  induction n with
  | zero => rfl
  | succ n ih => rw [List.range_succ, List.foldl_concat, ← ih, afterRounds]

/-- Settles O60, by induction on the number of main rounds. -/
theorem cipherByItsRounds : Obligations.CipherByItsRounds :=
  fun inp W nr _ => by rw [cipher, afterRounds_eq_foldl]

end Sys2Proof.Machine
end

section
/-! SUPPORT. The host's transactions, register by register (43_commands.md R170–R175): what a read returns and what a
write leaves. -/

namespace Sys2Proof.Machine

section
variable {s : State} {a : Offset} {v : Word}

theorem exec_rd_any (ha : a.toNat % 4 = 0) (h : readAt a s = none) : exec (.rd a) s = .next (returnAny s) := by
  simp [exec, execRd, (aligned_iff a).2 ha, h]

theorem exec_rd_key {j : Fin 8} (ha : a.toNat = 0x010 + 4 * j.val) :
    exec (.rd a) s = .next (returnRead s.KEY[j] s) :=
  exec_rd_of_readAt (by omega) (by rw [readAt, regAt_key a j ha, readReg])

theorem exec_rd_din {j : Fin 4} (ha : a.toNat = 0x030 + 4 * j.val) :
    exec (.rd a) s = .next (returnRead s.DIN[j] s) :=
  exec_rd_of_readAt (by omega) (by rw [readAt, regAt_din a j ha, readReg])

/-- DOUT is not to be read while the block is encrypted (R170). -/
theorem exec_rd_dout {j : Fin 4} (ha : a.toNat = 0x040 + 4 * j.val) :
    exec (.rd a) s = if s.phase = .encrypt then .next (returnAny s) else .next (returnRead s.DOUT[j] s) := by
  have read : readAt a s = if s.phase = .encrypt then none else some s.DOUT[j] := by
    rw [readAt, regAt_dout a j ha, readReg]
  by_cases hp : s.phase = .encrypt
  · rw [if_pos hp] at read ⊢
    exact exec_rd_any (by omega) read
  · rw [if_neg hp] at read ⊢
    exact exec_rd_of_readAt (by omega) read

theorem readAt_rk {i : Fin 60} (ha : a.toNat = 0x100 + 4 * i.val) :
    readAt a s = if s.phase = .expand then none else s.RK[i] := by
  rw [readAt, regAt_rk a i ha, readReg]

/-- KEYCFG reads its two fields, KEYLEN from bit 8 on (R170). -/
theorem keycfgWord_eq_or (s : State) :
    keycfgWord s = s.KEYCFG_KEYLEN.setWidth 32 <<< 8 ||| s.KEYCFG_NK.setWidth 32 := by
  apply BitVec.eq_of_getLsbD_eq
  intro i hi
  have nk : 4 ≤ i → s.KEYCFG_NK.getLsbD i = false := BitVec.getLsbD_of_ge _ _
  rw [getLsbD_keycfgWord]
  split
  case isTrue low => simp [hi, show i < 8 by omega]
  case isFalse notLow =>
    split
    case isTrue gap => simp [hi, gap, nk (by omega)]
    case isFalse high => simp [hi, high, nk (by omega)]

/-- What a write does while a command runs (R171). -/
theorem writeReg_of_busy (hp : s.phase ≠ .idle) (r : Reg) (v : Word) :
    writeReg r v s = if r.writable then { s with ERR := 5#3 } else s := by
  cases r with
  | ctrl | keycfg | key | din => exact whenIdle_busy _ s hp
  | status | dout | rk | reserved => rfl

/-- The offsets of R52 that take writes hold the writable registers. -/
theorem writable_regAt (ha : a.toNat % 4 = 0) :
    (regAt a).writable = true ↔ a.toNat = 0x000 ∨ a.toNat = 0x008 ∨ (0x010 ≤ a.toNat ∧ a.toNat ≤ 0x03C) := by
  refine ⟨offset_of_regAt_writable ha, fun h => ?_⟩
  rcases regAt_cases a ha with ⟨-, hr⟩ | ⟨ho, -⟩ | ⟨-, hr⟩ | ⟨j, -, hr⟩ | ⟨j, -, hr⟩ | ⟨j, ho, -⟩ | ⟨i, ho, -⟩ | ⟨ho, -⟩
  · rw [hr]; rfl
  · omega
  · rw [hr]; rfl
  · rw [hr]; rfl
  · rw [hr]; rfl
  · omega
  · omega
  · omega

end

/-- A write to CTRL is the command its CMD field names (R175). -/
theorem commandOf_wr_ctrl (v : Word) : commandOf (.wr 0x000#12 v) = some (cmdOf v) := rfl

/-- Settles O11: the register map names what each offset reads, `any` where that is none. -/
theorem readEffect : Obligations.ReadEffect := by
  intro s
  refine ⟨rfl, exec_rd_status s, ?keycfg, fun a j ha => exec_rd_key ha, fun a j ha => exec_rd_din ha,
    fun a j ha => exec_rd_dout ha,
    fun a i ha => ⟨fun h => exec_rd_any (by omega) ?rkAny, fun v hp hv => exec_rd_of_readAt (by omega) ?rk⟩,
    fun a ha hr => exec_rd_of_readAt ha (by rw [readAt, regAt_reserved a ha hr, readReg])⟩
  case keycfg => rw [← keycfgWord_eq_or]; rfl
  case rkAny => rw [readAt_rk ha, ite_eq_left_iff]; exact h.resolve_left
  case rk => rw [readAt_rk ha, if_neg hp, hv]

/-- Settles O13: a register that is not writable ignores the write, a busy core drops it, an idle one performs it. -/
theorem writeEffect : Obligations.WriteEffect := by
  intro s a v ha
  rw [exec_wr s a v ha]
  refine ⟨fun h => ?ignored, fun h hp => ?dropped,
    fun hp => ⟨fun h => ?keycfg, fun j h => ?key, fun j h => ?din, fun h => ?ctrl⟩⟩
  case ignored =>
    rw [writeReg_of_not_writable (Bool.eq_false_iff.2 (mt (writable_regAt ha).1 h))]
  case dropped => rw [writeReg_of_busy hp, if_pos ((writable_regAt ha).2 h)]
  case keycfg =>
    obtain rfl : a = 0x008#12 := BitVec.eq_of_toNat_eq h
    rw [← exec_wr s _ v ha, exec_wr_keycfg hp]; rfl
  case key => rw [← exec_wr s _ v ha, exec_wr_key h hp]; rfl
  case din => rw [← exec_wr s _ v ha, exec_wr_din h hp]; rfl
  case ctrl =>
    obtain rfl : a = 0x000#12 := BitVec.eq_of_toNat_eq h
    rw [← exec_wr s _ v ha]
    rw [exec_command (commandOf_wr_ctrl v), ← exec_command (commandOf_decodeCtrl v), decodeCtrl, cmdOf_eq]
    rcases v.toNat % 4 with _ | _ | _ | _ <;> rfl

end Sys2Proof.Machine
end

section
/-! SUPPORT. The four commands (43_commands.md R176–R179): dropped while busy, and while idle rejected or accepted. -/

namespace Sys2Proof.Machine

section
variable {i : Instr} {c : Cmd} {s : State}

theorem exec_command_of_busy (h : commandOf i = some c) (hp : s.phase ≠ .idle) :
    exec i s = .next { s with ERR := 5#3 } := by
  rw [exec_command h, whenIdle_busy _ s hp]

theorem exec_command_of_idle (h : commandOf i = some c) (hp : s.phase = .idle) :
    exec i s = .next (commandIdle c s) := by
  rw [exec_command h, whenIdle_idle _ s hp]

end

/-- Settles O17. -/
theorem nopEffect : Obligations.NopEffect :=
  ⟨fun _ hp => exec_command_of_idle (c := .nop) rfl hp, fun _ hp => exec_command_of_busy (c := .nop) rfl hp,
    by decide, by decide⟩

/-- Settles O20. -/
theorem reservedCommandEffect : Obligations.ReservedCommandEffect :=
  fun _ => ⟨fun hp => exec_command_of_busy (c := .reserved) rfl hp,
    fun hp => exec_command_of_idle (c := .reserved) rfl hp, by decide⟩

/-! EXPAND_KEY (R177). -/

section
variable {s : State}

/-- The classes of R123 are the values of the field that have a round count. -/
theorem nrOf_toNat_eq_none (nk : BitVec 4) : nrOf nk.toNat = none ↔ ¬ (nk = 4#4 ∨ nk = 6#4 ∨ nk = 8#4) := by
  rw [Option.eq_none_iff_forall_ne_some, ← not_exists, exists_nrOf_eq_some]
  simp only [← BitVec.toNat_inj, BitVec.toNat_ofNat, Nat.reducePow, Nat.reduceMod]

theorem expandKeyIdle_of_illegal_class (h : nrOf s.KEYCFG_NK.toNat = none) :
    expandKeyIdle s = { s with DONE := false, KEY_VALID := false, ERR := 1#3 } := by
  rcases expandKeyIdle_cases s with ⟨-, ht⟩ | ⟨nr, hn, -⟩ | ⟨nr, hn, -⟩
  · exact ht
  · simp [h] at hn
  · simp [h] at hn

theorem expandKeyIdle_of_illegal_length (h : nrOf s.KEYCFG_NK.toNat ≠ none)
    (hl : s.KEYCFG_KEYLEN.toNat ≠ 4 * s.KEYCFG_NK.toNat) :
    expandKeyIdle s = { s with DONE := false, KEY_VALID := false, ERR := 2#3 } := by
  rcases expandKeyIdle_cases s with ⟨hn, -⟩ | ⟨nr, -, -, ht⟩ | ⟨nr, -, hl', -⟩
  · exact absurd hn h
  · exact ht
  · exact absurd hl' hl

theorem expandKeyIdle_of_legal {nr : Nat} (h : nrOf s.KEYCFG_NK.toNat = some nr)
    (hl : s.KEYCFG_KEYLEN.toNat = 4 * s.KEYCFG_NK.toNat) :
    expandKeyIdle s = expandAccepted nr { s with DONE := false, KEY_VALID := false } := by
  rcases expandKeyIdle_cases s with ⟨hn, -⟩ | ⟨nr', -, hl', -⟩ | ⟨nr', hn, -, ht⟩
  · simp [h] at hn
  · exact absurd hl hl'
  · rwa [Option.some.inj (h.symm.trans hn)]

end

theorem getElem_copyKey_of_lt (key : Vector Word 8) (rk : Vector (Option Word) 60) {nk i : Nat} (h8 : i < 8)
    (h : i < nk) : (copyKey key nk rk)[i] = some key[i] := by
  simp [copyKey, h8, h]

theorem getElem_copyKey_of_ge (key : Vector Word 8) (rk : Vector (Option Word) 60) {nk i : Nat} (hi : i < 60)
    (h : nk ≤ i) : (copyKey key nk rk)[i] = rk[i] := by
  simp only [copyKey, Vector.getElem_ofFn, Nat.not_lt.2 h, if_false]
  split <;> rfl

/-- Settles O18: the class is checked before the length, and the acceptance copies the key's NK words. -/
theorem expandKeyEffect : Obligations.ExpandKeyEffect := by
  intro s
  have idle (hp : s.phase = .idle) : exec .expandKey s = .next (expandKeyIdle s) :=
    exec_command_of_idle (c := .expandKey) rfl hp
  refine ⟨fun hp => exec_command_of_busy (c := .expandKey) rfl hp, fun hp hn => ?illegalClass,
    fun hp hn hl => ?illegalLength, fun nr hp hn hl => ?accepted⟩
  case illegalClass => rw [idle hp, expandKeyIdle_of_illegal_class ((nrOf_toNat_eq_none _).2 hn)]
  case illegalLength =>
    rw [idle hp, expandKeyIdle_of_illegal_length (fun h => (nrOf_toNat_eq_none _).1 h hn) hl]
  case accepted =>
    have rounds : nrOf s.KEYCFG_NK.toNat = some nr.toNat := by
      rcases hn with ⟨h, rfl⟩ | ⟨h, rfl⟩ | ⟨h, rfl⟩ <;> rw [h] <;> rfl
    refine ⟨copyKey s.KEY s.KEYCFG_NK.toNat s.RK, s.KEYCFG_NK.setWidth 6, ?_, ?_,
      fun j hj => getElem_copyKey_of_lt _ _ j.isLt hj, fun j hj => getElem_copyKey_of_ge _ _ j.isLt hj⟩
    · rw [idle hp, expandKeyIdle_of_legal rounds hl, expandAccepted, BitVec.ofNat_toNat, BitVec.setWidth_eq]
      rfl
    · exact BitVec.toNat_setWidth_of_le (by decide)

/-! ENCRYPT_BLOCK (R178). -/

section
variable {s : State}

theorem encryptBlockIdle_of_invalid (h : s.KEY_VALID = false) :
    encryptBlockIdle s = { s with DONE := false, ERR := 4#3 } := by
  rcases encryptBlockIdle_cases s with ⟨-, ht⟩ | ⟨hv, -⟩
  · exact ht
  · simp [h] at hv

theorem encryptBlockIdle_of_valid (h : s.KEY_VALID = true) :
    encryptBlockIdle s = encryptAccepted { s with DONE := false } := by
  rcases encryptBlockIdle_cases s with ⟨hv, -⟩ | ⟨-, ht⟩
  · simp [h] at hv
  · exact ht

end

/-- Settles O19: the State loaded is the input block, and its cells are the lanes of DIN. -/
theorem encryptBlockEffect : Obligations.EncryptBlockEffect := by
  intro s
  have idle (hp : s.phase = .idle) : exec .encryptBlock s = .next (encryptBlockIdle s) :=
    exec_command_of_idle (c := .encryptBlock) rfl hp
  refine ⟨fun hp => exec_command_of_busy (c := .encryptBlock) rfl hp, fun hp hv => ?rejected, fun hp hv => ?accepted⟩
  case rejected => rw [idle hp, encryptBlockIdle_of_invalid hv]
  case accepted =>
    refine ⟨loadState (inputBytes s.DIN), ?_, fun r c => by rw [loadState_eq, cell_inputBytes]⟩
    rw [idle hp, encryptBlockIdle_of_valid hv]
    rfl

end Sys2Proof.Machine
end

section
/-! SUPPORT. The engine's micro-steps (43_commands.md R181–R184), from the conditions under which each goes on. -/

namespace Sys2Proof.Machine

/-- The index of a schedule word still to compute has a successor (R34). -/
theorem toNat_KI_succ {s : State} (hn : nrOf s.SNK.toNat = some s.SNR.toNat)
    (below : s.KI.toNat < 4 * (s.SNR.toNat + 1)) : (s.KI + 1#6).toNat = s.KI.toNat + 1 := by
  have := (nrOf_eq_some _ _).1 hn
  bv_omega

/-- Settles O21: both operands of KEXP_STEP are words of W below KI, and the index decides whether it ends the
command. -/
theorem kexpStepEffect : Obligations.KexpStepEffect := by
  intro s W hp hclass above below hW
  have rounds : nrOf s.SNK.toNat = some s.SNR.toNat := by
    rcases hclass with ⟨h, h'⟩ | ⟨h, h'⟩ | ⟨h, h'⟩ <;> rw [h, h'] <;> rfl
  have hk := (nrOf_eq_some _ _).1 rounds
  have operands := kexpOperands_eq_some.2 ⟨rounds, above, below, hW (s.KI.toNat - 1) (by omega),
    hW (s.KI.toNat - s.SNK.toNat) (by omega)⟩
  have step := exec_kexpStep_next.2 ⟨hp, _, _, operands, rfl⟩
  refine ⟨s.RK.setIfInBounds s.KI.toNat (some (keyStep W s.KI.toNat s.SNK.toNat)), s.KI + 1#6,
    fun more => ?_, fun last => ?_, toNat_KI_succ rounds below, fun j => ?_⟩
  · rw [step, storeScheduleWord_more _ more.ne]; rfl
  · rw [step, storeScheduleWord_last _ last]; rfl
  · simp only [Fin.getElem_fin, Vector.getElem_setIfInBounds, eq_comm]

/-- Settles O22. -/
theorem encInitialEffect : Obligations.EncInitialEffect := by
  intro s k hp hr hk
  have key : roundKey s 0 = some k := roundKey_eq_some.2 (by simpa using hk)
  exact ⟨addRoundKey s.ST k, exec_encInitial_next.2 ⟨hp, hr, k, key, rfl⟩, cell_addRoundKey s.ST k⟩

/-- Settles O23: the four sub-operations cell by cell; ShiftRows brings row r's byte from column c + r. -/
theorem encRoundEffect : Obligations.EncRoundEffect := by
  intro s k hp first notFinal hk
  refine ⟨mainRound s.ST k, s.RND + 1#4, exec_encRound_next.2 ⟨hp, ⟨first, notFinal⟩, k, roundKey_eq_some.2 hk, rfl⟩,
    by bv_omega, fun r c => ?_⟩
  simp only [mainRound, cell_addRoundKey, cell_mixColumns, cell_shiftRows, cell_subBytes, add_zero]

/-- Settles O24: the final round cell by cell, its columns packed into DOUT in the same step. -/
theorem encFinalEffect : Obligations.EncFinalEffect := by
  intro s k hp hr hk
  refine ⟨finalRound s.ST k, columnWords (finalRound s.ST k),
    exec_encFinal_next.2 ⟨hp, hr, k, roundKey_eq_some.2 hk, rfl⟩, fun r c => ?_, fun j => ?_⟩
  · simp only [finalRound, cell_addRoundKey, cell_shiftRows, cell_subBytes]
  · simp [columnWords, columnWord]

end Sys2Proof.Machine
end

section
/-! SUPPORT. The host beside a running command (43_commands.md R171, R180) and beside what it has read itself (section
5, R189): no host operation disturbs a command, and no meaning depends on the reads or the draws. -/

namespace Sys2Proof.Machine

/-- Every host operation inside the interface goes on in every state (R57). -/
theorem exec_host_progress {i : Instr} (host : hostOperation i = true) (wf : i.wf = true) (s : State) :
    ∃ t, exec i s = .next t := by
  cases i with
  | nop | expandKey | encryptBlock | cmdReserved => exact ⟨_, rfl⟩
  | wr a v => exact ⟨_, exec_wr s a v ((aligned_iff a).1 wf)⟩
  | rd a => exact exec_rd_progress wf s
  | kexpStep | encInitial | encRound | encFinal | reset => cases host

/-- Settles O39: of a host operation's effects only `kept` leaves a busy core. -/
theorem hostCannotDisturbCommand : Obligations.HostCannotDisturbCommand := by
  intro i s host wf hp
  obtain ⟨t, ht⟩ := exec_host_progress host wf s
  refine ⟨t, ht, ?_⟩
  cases exec_effect ht with
  | kept => rfl
  | keycfg _ idle | key _ idle | din _ idle | rejected _ _ idle | expandAccepted _ idle | encryptAccepted _ idle =>
    exact absurd idle hp
  | kexpStep | kexpLast | encInitial | encRound | encFinal | reset => cases host

/-! Other values read and another draw count: assumptions 4 and 5 of the model. -/

/-- The state in which the host has read `reads` and drawn `draws` times. -/
def State.withReads (reads : List Word) (draws : Nat) (s : State) : State := { s with reads := reads, draws := draws }

/-- A result but for the reads and the draws it leaves. -/
def EqualApartFromDraws (r : Result) (t : State) : Prop := ∃ reads draws, r = .next (t.withReads reads draws)

section
variable (reads : List Word) (draws : Nat) {s t : State}

theorem whenIdle_withReads {f : State → State} (hf : f (s.withReads reads draws) = (f s).withReads reads draws) :
    whenIdle f (s.withReads reads draws) = (whenIdle f s).withReads reads draws := by
  by_cases hp : s.phase = .idle
  · rw [whenIdle_idle _ _ hp, whenIdle_idle _ _ (by exact hp), hf]
  · rw [whenIdle_busy _ _ hp, whenIdle_busy _ _ (by exact hp)]; rfl

theorem commandIdle_withReads (c : Cmd) (s : State) :
    commandIdle c (s.withReads reads draws) = (commandIdle c s).withReads reads draws := by
  cases c with
  | nop | reserved => rfl
  | expandKey =>
    rcases expandKeyIdle_cases s with ⟨hn, ht⟩ | ⟨nr, hn, hl, ht⟩ | ⟨nr, hn, hl, ht⟩ <;>
      rw [commandIdle, commandIdle, ht]
    · exact expandKeyIdle_of_illegal_class (by exact hn)
    · exact expandKeyIdle_of_illegal_length (by simp [State.withReads, hn]) (by exact hl)
    · rw [expandKeyIdle_of_legal (by exact hn) (by exact hl), expandAccepted, expandAccepted]; rfl
  | encryptBlock =>
    rcases encryptBlockIdle_cases s with ⟨hv, ht⟩ | ⟨hv, ht⟩ <;> rw [commandIdle, commandIdle, ht]
    · exact encryptBlockIdle_of_invalid (by exact hv)
    · exact encryptBlockIdle_of_valid (by exact hv)

theorem writeReg_withReads (r : Reg) (v : Word) (s : State) :
    writeReg r v (s.withReads reads draws) = (writeReg r v s).withReads reads draws := by
  cases r with
  | ctrl => exact whenIdle_withReads reads draws (commandIdle_withReads reads draws _ s)
  | keycfg | key | din => exact whenIdle_withReads reads draws rfl
  | status | dout | rk | reserved => rfl

theorem storeScheduleWord_withReads (w : Word) (s : State) :
    storeScheduleWord w (s.withReads reads draws) = (storeScheduleWord w s).withReads reads draws := by
  by_cases last : s.KI.toNat + 1 = 4 * (s.SNR.toNat + 1)
  · rw [storeScheduleWord_last w last, storeScheduleWord_last w (by exact last)]; rfl
  · rw [storeScheduleWord_more w last, storeScheduleWord_more w (by exact last)]; rfl

/-- Reset draws ST; every other operation does the same whatever has been read and drawn. -/
theorem exec_withReads {i : Instr} (hi : i ≠ .reset) (h : exec i s = .next t) :
    EqualApartFromDraws (exec i (s.withReads reads draws)) t := by
  cases hc : commandOf i with
  | some c =>
    rw [exec_command hc] at h ⊢
    cases h
    exact ⟨reads, draws, congrArg _ (whenIdle_withReads reads draws (commandIdle_withReads reads draws c s))⟩
  | none =>
    cases i with
    | wr a v =>
      have ha := aligned_of_exec_wr h
      rw [exec_wr _ a v ha] at h ⊢
      cases h
      exact ⟨reads, draws, congrArg _ (writeReg_withReads reads draws _ v s)⟩
    | rd a =>
      obtain ⟨al, ⟨v, read, rfl⟩ | ⟨read, rfl⟩⟩ := exec_rd_next h
      · exact ⟨_, _, exec_rd_of_readAt ((aligned_iff a).1 al) read⟩
      · exact ⟨_, _, exec_rd_any ((aligned_iff a).1 al) read⟩
    | kexpStep =>
      obtain ⟨hp, prev, back, operands, rfl⟩ := exec_kexpStep_next.1 h
      exact ⟨reads, draws,
        exec_kexpStep_next.2 ⟨hp, prev, back, operands, (storeScheduleWord_withReads reads draws _ s).symm⟩⟩
    | encInitial =>
      obtain ⟨hp, hr, k, key, rfl⟩ := exec_encInitial_next.1 h
      exact ⟨reads, draws, exec_encInitial_next.2 ⟨hp, hr, k, key, rfl⟩⟩
    | encRound =>
      obtain ⟨hp, hr, k, key, rfl⟩ := exec_encRound_next.1 h
      exact ⟨reads, draws, exec_encRound_next.2 ⟨hp, hr, k, key, rfl⟩⟩
    | encFinal =>
      obtain ⟨hp, hr, k, key, rfl⟩ := exec_encFinal_next.1 h
      exact ⟨reads, draws, exec_encFinal_next.2 ⟨hp, hr, k, key, rfl⟩⟩
    | reset => exact absurd rfl hi
    | nop | expandKey | encryptBlock | cmdReserved => cases hc

theorem rejected_withReads {e : DecodeError} (h : rejected e s = .next t) :
    EqualApartFromDraws (rejected e (s.withReads reads draws)) t := by
  cases e <;> cases h
  exact ⟨reads, draws, rfl⟩

theorem nextForm_withReads (s : State) :
    nextForm (s.withReads reads draws) = (nextForm s).map fun p => (p.1, p.2.withReads reads draws) := by
  cases hturns : s.turns with
  | nil =>
    by_cases hp : s.phase = .idle
    · rw [nextForm_of_turns_nil_of_idle hturns hp, nextForm_of_turns_nil_of_idle (by exact hturns) (by exact hp)]; rfl
    · rw [nextForm_of_turns_nil_of_busy hturns hp, nextForm_of_turns_nil_of_busy (by exact hturns) (by exact hp)]; rfl
  | cons turn rest =>
    rw [nextForm_of_turns_cons hturns, nextForm_of_turns_cons (by exact hturns)]
    cases turn <;> rfl

end

/-- Of the four formats the signal's alone selects the reset (R80). -/
theorem eq_signal_of_decode_reset {f : Form} (h : decode f = .ok .reset) : f = .signal := by
  cases f with
  | ctrl v =>
    have := congrArg commandOf (Except.ok.inj h)
    rw [commandOf_decodeCtrl] at this
    cases this
  | bus size w =>
    simp only [decode, decodeBus] at h
    split_ifs at h <;> cases h
  | engine phase rnd snr =>
    cases phase with
    | idle | expand => cases h
    | encrypt =>
      simp only [decode, decodeEngine] at h
      split_ifs at h <;> cases h
  | signal => rfl

/-- Without a turn of `rst` next no reset is taken. -/
theorem ne_reset_of_nextForm {s u : State} {f : Form} {i : Instr} (hrst : ∀ rest, s.turns ≠ .rst :: rest)
    (hf : nextForm s = some (f, u)) (hd : decode f = .ok i) : i ≠ .reset := by
  rintro rfl
  obtain rfl := eq_signal_of_decode_reset hd
  cases hturns : s.turns with
  | nil =>
    by_cases hp : s.phase = .idle
    · rw [nextForm_of_turns_nil_of_idle hturns hp] at hf; cases hf
    · rw [nextForm_of_turns_nil_of_busy hturns hp] at hf; cases hf
  | cons turn rest =>
    rw [nextForm_of_turns_cons hturns] at hf
    cases turn with
    | ctrl | bus | engine => cases hf
    | rst => exact hrst rest hturns

theorem step_of_decode_error {s u : State} {f : Form} {e : DecodeError} (hf : nextForm s = some (f, u))
    (hd : decode f = .error e) : step s = rejected e u := by
  simp [step, hf, hd]

/-- Settles O42: the next form is the same, and so is what its operation does. -/
theorem stepsEqualApartFromDraws : Obligations.StepsEqualApartFromDraws := by
  intro s t reads draws hrst h
  change EqualApartFromDraws (step (s.withReads reads draws)) t
  have form := nextForm_withReads reads draws s
  rcases step_cases s with ⟨hf, hs⟩ | ⟨f, u, i, hf, hd, hs⟩ | ⟨f, u, e, hf, hd, hs⟩ <;> rw [hs] at h <;> rw [hf] at form
  · cases h
    exact ⟨reads, draws, step_of_nextForm_none form⟩
  · rw [step_of_decode_ok form hd]
    exact exec_withReads reads draws (ne_reset_of_nextForm hrst hf hd) h
  · rw [step_of_decode_error form hd]
    exact rejected_withReads reads draws h

end Sys2Proof.Machine
end

section
/-! SUPPORT. Whole commands (43_commands.md R180, section 4): what a running command keeps while it goes on and what it
leaves when it ends; a turn of the host lets it go on, a turn of the engine takes one of its remaining steps. What the
command computes is read off from the invariants of 10_state.md R37 at its end. -/

namespace Sys2Proof.Machine

/-- What a command that runs in `s` may have changed while it goes on. -/
inductive Continued (s : State) : State → Prop where
  /-- An expansion moves KI and the words of its own schedule (R181). -/
  | expansion {rk : Vector (Option Word) 60} {ki : BitVec 6} {err : BitVec 3} {turns : List Turn} {reads : List Word}
      {draws : Nat} (expand : s.phase = .expand) (above : ∀ i, 4 * (s.SNR.toNat + 1) ≤ i → rk[i]? = s.RK[i]?) :
      Continued s { s with RK := rk, KI := ki, ERR := err, turns := turns, reads := reads, draws := draws }
  /-- An encryption moves ST and RND (R182, R183). -/
  | encryption {st : Vector Byte 16} {rnd : BitVec 4} {err : BitVec 3} {turns : List Turn} {reads : List Word}
      {draws : Nat} (encrypt : s.phase = .encrypt) :
      Continued s { s with ST := st, RND := rnd, ERR := err, turns := turns, reads := reads, draws := draws }

/-- What a command that runs in `s` has changed when it ends. -/
inductive Completed (s : State) : State → Prop where
  /-- The expansion's last step (R181). -/
  | expansion {rk : Vector (Option Word) 60} {ki : BitVec 6} {err : BitVec 3} {turns : List Turn} {reads : List Word}
      {draws : Nat} (expand : s.phase = .expand) (above : ∀ i, 4 * (s.SNR.toNat + 1) ≤ i → rk[i]? = s.RK[i]?)
      (counter : ki.toNat = 4 * (s.SNR.toNat + 1)) :
      Completed s { s with RK := rk, KI := ki, phase := .idle, KEY_VALID := true, DONE := true, ERR := err,
                           turns := turns, reads := reads, draws := draws }
  /-- The encryption's final round (R184). -/
  | encryption {st : Vector Byte 16} {dout : Vector Word 4} {err : BitVec 3} {turns : List Turn} {reads : List Word}
      {draws : Nat} (encrypt : s.phase = .encrypt) :
      Completed s { s with ST := st, DOUT := dout, RND := s.SNR + 1#4, phase := .idle, DONE := true, ERR := err,
                           turns := turns, reads := reads, draws := draws }

section
variable {s u t : State}

theorem Continued.phase_eq (hc : Continued s t) : t.phase = s.phase := by
  cases hc <;> rfl

theorem Completed.phase_eq (hc : Completed s t) : t.phase = .idle := by
  cases hc <;> rfl

theorem Completed.done (hc : Completed s t) : t.DONE = true := by
  cases hc <;> rfl

theorem phase_of_busy (hp : s.phase ≠ .idle) : s.phase = .expand ∨ s.phase = .encrypt := by
  cases phase : s.phase with
  | idle => exact absurd phase hp
  | expand => exact .inl rfl
  | encrypt => exact .inr rfl

/-- ERR, the turns to come, the reads and the draws are not the command's. -/
theorem Continued.of_host (hp : s.phase ≠ .idle) (err : BitVec 3) (turns : List Turn) (reads : List Word)
    (draws : Nat) :
    Continued s { s with ERR := err, turns := turns, reads := reads, draws := draws } := by
  rcases phase_of_busy hp with expand | encrypt
  · exact .expansion expand fun _ _ => rfl
  · exact .encryption encrypt

theorem Continued.trans (hc : Continued s u) (hu : Continued u t) : Continued s t := by
  cases hc with
  | expansion expand above =>
    cases hu with
    | expansion _ above' => exact .expansion expand fun i hi => (above' i hi).trans (above i hi)
    | encryption encrypt => simp [expand] at encrypt
  | encryption encrypt =>
    cases hu with
    | expansion expand => simp [encrypt] at expand
    | encryption => exact .encryption encrypt

theorem Continued.completed (hc : Continued s u) (hu : Completed u t) : Completed s t := by
  cases hc with
  | expansion expand above =>
    cases hu with
    | expansion _ above' counter => exact .expansion expand (fun i hi => (above' i hi).trans (above i hi)) counter
    | encryption encrypt => simp [expand] at encrypt
  | encryption encrypt =>
    cases hu with
    | expansion expand => simp [encrypt] at expand
    | encryption => exact .encryption encrypt

end

/-! The steps that remain (R241). -/

section
variable {h : Latched} {s t : State}

theorem remainingSteps_of_idle (hp : s.phase = .idle) : remainingSteps s = 0 := by
  rw [remainingSteps, hp]

theorem remainingSteps_of_expand (hp : s.phase = .expand) :
    remainingSteps s = 4 * (s.SNR.toNat + 1) - s.KI.toNat := by
  rw [remainingSteps, hp]

theorem remainingSteps_of_encrypt (hp : s.phase = .encrypt) : remainingSteps s = s.SNR.toNat + 1 - s.RND.toNat := by
  rw [remainingSteps, hp]

/-- A running command has a step to take. -/
theorem State.Inv.remainingSteps_eq_zero (hi : s.Inv h) : remainingSteps s = 0 ↔ s.phase = .idle := by
  cases hp : s.phase with
  | idle => simp [remainingSteps, hp]
  | expand =>
    obtain ⟨-, -, below, -, -⟩ := hi.expanding hp
    simp only [remainingSteps_of_expand hp, reduceCtorEq, iff_false]
    omega
  | encrypt =>
    obtain ⟨below, -, -⟩ := hi.encrypting hp
    simp only [remainingSteps_of_encrypt hp, reduceCtorEq, iff_false]
    omega

/-- What a micro-step of a running command leaves, by the steps that remain after it. -/
structure EngineStep (h : Latched) (s t : State) : Prop where
  inv : t.Inv h
  err : t.ERR = s.ERR
  remaining : remainingSteps t + 1 = remainingSteps s
  last : remainingSteps t = 0 → Completed s t
  more : remainingSteps t ≠ 0 → Continued s t

/-- A word stored at KI is a word of the schedule being computed. -/
theorem State.Inv.getElem?_setIfInBounds_KI (hi : s.Inv h) (hp : s.phase = .expand) (w : Option Word) (i : Nat)
    (above : 4 * (s.SNR.toNat + 1) ≤ i) : (s.RK.setIfInBounds s.KI.toNat w)[i]? = s.RK[i]? := by
  obtain ⟨-, -, below, -, -⟩ := hi.expanding hp
  exact Vector.getElem?_setIfInBounds_ne (by omega)

/-- A round that is not the final one. -/
theorem EngineStep.of_round {st : Vector Byte 16} {rnd : BitVec 4}
    (inv : ({ s with ST := st, RND := rnd } : State).Inv h) (hp : s.phase = .encrypt)
    (counter : rnd.toNat = s.RND.toNat + 1) (notFinal : s.RND.toNat < s.SNR.toNat) :
    EngineStep h s { s with ST := st, RND := rnd } where
  inv := inv
  err := rfl
  remaining := by
    rw [remainingSteps_of_encrypt hp, remainingSteps_of_encrypt (by exact hp)]
    dsimp only
    omega
  last h0 := absurd ((inv.remainingSteps_eq_zero.1 h0).symm.trans hp) (by decide)
  more _ := .encryption hp

/-- Each micro-step takes one of the remaining steps and no other agent's part. -/
theorem Effect.engineStep {i : Instr} (e : Effect i s t) (engine : engineOperation i = true) (hi : s.Inv h) :
    t.turns = s.turns ∧ EngineStep h s t := by
  cases e with
  | kept host => simp [engineOperation_of_hostOperation host] at engine
  | rejected command | expandAccepted command | encryptAccepted command =>
    simp [engineOperation_of_commandOf command] at engine
  | keycfg | key | din | reset => cases engine
  | kexpStep expand operands more =>
    have inv := hi.kexpStep expand operands more
    obtain ⟨-, -, below, -, -⟩ := hi.expanding expand
    refine ⟨rfl, inv, rfl, ?_, fun h0 => ?_, fun _ => .expansion expand (hi.getElem?_setIfInBounds_KI expand _)⟩
    · rw [remainingSteps_of_expand expand, remainingSteps_of_expand (by exact expand)]
      dsimp only
      rw [hi.toNat_KI_succ expand]
      omega
    · exact absurd ((inv.remainingSteps_eq_zero.1 h0).symm.trans expand) (by decide)
  | kexpLast expand operands last =>
    refine ⟨rfl, hi.kexpLast expand operands last, rfl, ?_, fun _ => ?_, fun h0 => absurd rfl h0⟩
    · rw [remainingSteps_of_expand expand, remainingSteps_of_idle rfl]
      omega
    · exact .expansion expand (hi.getElem?_setIfInBounds_KI expand _) ((hi.toNat_KI_succ expand).trans last)
  | encInitial encrypt round key =>
    have := hi.pos_SNR encrypt
    exact ⟨rfl, .of_round (hi.encInitial encrypt round key) encrypt (by rw [round]; rfl) (by rw [round]; exact this)⟩
  | encRound encrypt first notFinal key =>
    exact ⟨rfl, .of_round (hi.encRound encrypt first notFinal key) encrypt (by bv_omega) notFinal⟩
  | encFinal encrypt round key =>
    refine ⟨rfl, hi.encFinal encrypt round key, rfl, ?_, fun _ => .encryption encrypt, fun h0 => absurd rfl h0⟩
    rw [remainingSteps_of_encrypt encrypt, round, remainingSteps_of_idle (encryptDone_phase _ s)]
    omega

/-- The invariants name no turn. -/
theorem State.Inv.set_turns (hi : s.Inv h) (turns : List Turn) : ({ s with turns := turns } : State).Inv h :=
  hi.congr rfl rfl rfl rfl rfl rfl rfl rfl rfl rfl hi.errCode

/-- With no turn to come a running command takes one of its remaining steps (R180). -/
theorem State.Inv.step_alone (hi : s.Inv h) (hturns : s.turns = []) (hp : s.phase ≠ .idle) :
    ∃ t, step s = .next t ∧ t.turns = [] ∧ EngineStep h s t := by
  obtain ⟨i, t, hd, engine, ht⟩ := hi.engine_progress hp
  obtain ⟨turns, e⟩ := (exec_effect ht).engineStep engine hi
  exact ⟨t, (step_of_decode_ok (nextForm_of_turns_nil_of_busy hturns hp) hd).trans ht, turns.trans hturns, e⟩

/-- So it does at a turn of the engine. -/
theorem State.Inv.step_engine_turn (hi : s.Inv h) {rest : List Turn} (hturns : s.turns = .engine :: rest)
    (hp : s.phase ≠ .idle) : ∃ t, step s = .next t ∧ t.turns = rest ∧ EngineStep h s t := by
  have taken := hi.set_turns rest
  have continued : Continued s { s with turns := rest } := .of_host hp _ _ _ _
  obtain ⟨i, t, hd, engine, ht⟩ := taken.engine_progress hp
  obtain ⟨turns, e⟩ := (exec_effect ht).engineStep engine taken
  exact ⟨t, (step_of_turns_cons hturns hd).trans ht, turns,
    { e with last := fun h0 => continued.completed (e.last h0), more := fun h0 => continued.trans (e.more h0) }⟩

end

section
variable {s : State} {turn : Turn} {rest : List Turn}

/-- A turn of the host while a command runs: at most dropped with ERR = BUSY, at most a read (R171). -/
theorem step_host_turn (hturns : s.turns = turn :: rest) (hp : s.phase ≠ .idle) (within : turn.withinCommand = true)
    (notEngine : turn ≠ .engine) :
    ∃ reads draws, step s = .next { s with
      ERR := if turn.writesRegister then 5#3 else s.ERR, turns := rest, reads := reads, draws := draws } := by
  cases turn with
  | ctrl v =>
    refine ⟨s.reads, s.draws, (step_of_turns_cons hturns rfl).trans ?_⟩
    exact exec_command_of_busy (commandOf_decodeCtrl v) hp
  | bus size w =>
    obtain ⟨rfl, al⟩ : size = 32 ∧ aligned (busAddr w) = true := by simpa [Turn.withinCommand] using within
    have hstep := step_of_turns_cons (s := s) hturns (decodeBus_aligned al)
    have al' := (aligned_iff _).1 al
    cases write : busWrite w with
    | true =>
      refine ⟨s.reads, s.draws, hstep.trans ?_⟩
      rw [write, if_pos rfl, exec_wr _ _ _ al', writeReg_of_busy (by exact hp), Turn.writesRegister, write,
        Bool.true_and]
      split <;> rfl
    | false =>
      rw [write] at hstep
      obtain ⟨t, ht⟩ := exec_rd_progress al { s with turns := rest }
      have noWrite : (Turn.bus 32 w).writesRegister = false := by simp [Turn.writesRegister, write]
      rw [noWrite]
      obtain ⟨-, ⟨v, -, rfl⟩ | ⟨-, rfl⟩⟩ := exec_rd_next ht
      all_goals exact ⟨_, _, hstep.trans ht⟩
  | engine => exact absurd rfl notEngine
  | rst => cases within

end

section
variable {h : Latched} {s : State}

/-- A turn of the host takes none of the command's remaining steps. -/
theorem State.Inv.step_host_turn (hi : s.Inv h) {turn : Turn} {rest : List Turn} (hturns : s.turns = turn :: rest)
    (hp : s.phase ≠ .idle) (within : turn.withinCommand = true) (notEngine : turn ≠ .engine) :
    ∃ t, step s = .next t ∧ t.turns = rest ∧ t.Inv h ∧ t.ERR = (if turn.writesRegister then 5#3 else s.ERR) ∧
      remainingSteps t = remainingSteps s ∧ Continued s t := by
  obtain ⟨reads, draws, ht⟩ := Machine.step_host_turn hturns hp within notEngine
  refine ⟨_, ht, rfl, hi.congr rfl rfl rfl rfl rfl rfl rfl rfl rfl rfl ?_, rfl, rfl, .of_host hp _ _ _ _⟩
  dsimp only
  split
  · decide
  · exact hi.errCode

/-- A command beside which the host takes its turns ends with the engine turn that takes its last remaining step. -/
theorem State.Inv.run_command {mid rest : List Turn} (hi : s.Inv h) (hp : s.phase ≠ .idle)
    (hturns : s.turns = mid ++ .engine :: rest) (within : mid.all Turn.withinCommand = true)
    (count : mid.count .engine + 1 = remainingSteps s) :
    ∃ t, run (mid.length + 1) s = .next t ∧ t.Inv h ∧ Completed s t ∧ t.turns = rest ∧
      t.ERR = if mid.any Turn.writesRegister then 5#3 else s.ERR := by
  induction mid generalizing s with
  | nil =>
    obtain ⟨t, ht, turns, e⟩ := hi.step_engine_turn hturns hp
    have h0 : remainingSteps t = 0 := by have := e.remaining; simp at count; omega
    exact ⟨t, run_succ 0 ht, e.inv, e.last h0, turns, e.err⟩
  | cons turn mid ih =>
    simp only [List.all_cons, Bool.and_eq_true] at within
    by_cases engine : turn = .engine
    · subst engine
      obtain ⟨u, hu, turns, e⟩ := hi.step_engine_turn hturns hp
      have remaining := e.remaining
      rw [List.count_cons_self] at count
      have continued := e.more (by omega)
      obtain ⟨t, ht, inv, completed, rest_eq, err⟩ :=
        ih e.inv (continued.phase_eq ▸ hp) turns within.2 (by omega)
      exact ⟨t, (run_succ _ hu).trans ht, inv, continued.completed completed, rest_eq, by rw [err, e.err]; rfl⟩
    · obtain ⟨u, hu, turns, inv, err, remaining, continued⟩ := hi.step_host_turn hturns hp within.1 engine
      rw [List.count_cons_of_ne engine, ← remaining] at count
      obtain ⟨t, ht, inv, completed, rest_eq, err'⟩ := ih inv (continued.phase_eq ▸ hp) turns within.2 count
      refine ⟨t, (run_succ _ hu).trans ht, inv, continued.completed completed, rest_eq, ?_⟩
      rw [err', err, List.any_cons]
      cases turn.writesRegister <;> simp

/-- A command left alone has taken n of its steps after n steps. -/
theorem State.Inv.run_alone (hi : s.Inv h) (hturns : s.turns = []) (hdone : s.phase = .idle → s.DONE = true) {n : Nat}
    (hn : n ≤ remainingSteps s) :
    ∃ t, run n s = .next t ∧ t.Inv h ∧ remainingSteps t = remainingSteps s - n ∧ (t.phase = .idle → t.DONE = true) := by
  induction n generalizing s with
  | zero => exact ⟨s, rfl, hi, rfl, hdone⟩
  | succ n ih =>
    have hp : s.phase ≠ .idle := fun h0 => by rw [remainingSteps_of_idle h0] at hn; omega
    obtain ⟨u, hu, turns, e⟩ := hi.step_alone hturns hp
    have remaining := e.remaining
    have done (h0 : u.phase = .idle) : u.DONE = true := (e.last (remainingSteps_of_idle h0)).done
    obtain ⟨t, ht, inv, left, done⟩ := ih e.inv turns done (by omega)
    exact ⟨t, (run_succ n hu).trans ht, inv, by omega, done⟩

end

/-- Settles O46: a step remains exactly while the core is busy, and each step takes one. -/
theorem commandCompletes : Obligations.CommandCompletes := by
  intro h s hi hturns hp
  have alone {n : Nat} (hn : n ≤ remainingSteps s) := hi.run_alone hturns (absurd · hp) hn
  refine ⟨fun n hn => ?_, ?_⟩
  · obtain ⟨t, ht, inv, left, -⟩ := alone hn.le
    exact ⟨t, ht, fun h0 => by rw [remainingSteps_of_idle h0] at left; omega⟩
  · obtain ⟨t, ht, inv, left, done⟩ := alone le_rfl
    have idle := inv.remainingSteps_eq_zero.1 (by omega)
    exact ⟨t, ht, idle, done idle⟩

/-! The two commands, from their acceptance to their end (section 4). -/

section
variable {s t : State}

/-- What EXPAND_KEY has changed from its acceptance to its end (R177, R181). -/
theorem Completed.of_expandAccepted {nr : Nat} (hn : nrOf s.KEYCFG_NK.toNat = some nr)
    (hc : Completed (expandAccepted nr { s with DONE := false, KEY_VALID := false }) t) :
    t = { s with RK := t.RK, phase := .idle, KEY_VALID := true, DONE := true, SNK := s.KEYCFG_NK,
                 SNR := BitVec.ofNat 4 nr, KI := t.KI, ERR := t.ERR, turns := t.turns, reads := t.reads,
                 draws := t.draws } ∧
      t.KI.toNat = 4 * (nr + 1) ∧ ∀ i, 4 * (nr + 1) ≤ i → rkWord t i = rkWord s i := by
  have hk := (nrOf_eq_some _ _).1 hn
  cases hc with
  | encryption encrypt => simp at encrypt
  | expansion _ above counter =>
    simp only [expandAccepted_SNR, expandAccepted_RK, toNat_nrOf hn] at above counter
    refine ⟨by simp, counter, fun i hi => congrArg Option.join ((above i hi).trans ?_)⟩
    by_cases hi' : i < 60
    · rw [Vector.getElem?_eq_getElem hi', Vector.getElem?_eq_getElem hi', getElem_copyKey_of_ge _ _ hi' (by omega)]
    · rw [Vector.getElem?_eq_none (by omega), Vector.getElem?_eq_none (by omega)]

/-- What ENCRYPT_BLOCK has changed from its acceptance to its end (R178, R184). -/
theorem Completed.of_encryptAccepted (hc : Completed (encryptAccepted { s with DONE := false }) t) :
    t = { s with DOUT := t.DOUT, ST := t.ST, RND := s.SNR + 1#4, phase := .idle, DONE := true, ERR := t.ERR,
                 turns := t.turns, reads := t.reads, draws := t.draws } := by
  cases hc with
  | expansion expand => simp at expand
  | encryption => rfl

end

section
variable {h : Latched} {s : State} {v : Word} {mid rest : List Turn}

theorem step_ctrl_of_idle (hturns : s.turns = .ctrl v :: rest) (hp : s.phase = .idle) :
    step s = .next (commandIdle (cmdOf v) { s with turns := rest }) :=
  (step_of_turns_cons hturns rfl).trans (exec_command_of_idle (commandOf_decodeCtrl v) hp)

/-- A command accepted in an idle core ends with the engine turn that takes its last step; `u` is what it leaves when it
is accepted. -/
theorem State.Inv.run_accepted {u : State} (hi : u.Inv h) (busy : u.phase ≠ .idle) (hp : s.phase = .idle)
    (hturns : s.turns = .ctrl v :: (mid ++ .engine :: rest))
    (accepted : ∀ turns, commandIdle (cmdOf v) { s with turns := turns } = { u with turns := turns })
    (within : mid.all Turn.withinCommand = true) (count : mid.count .engine + 1 = remainingSteps u) :
    ∃ t, run (mid.length + 2) s = .next t ∧ t.Inv h ∧ Completed u t ∧ t.turns = rest ∧
      t.ERR = if mid.any Turn.writesRegister then 5#3 else u.ERR := by
  have first := step_ctrl_of_idle hturns hp
  rw [accepted] at first
  obtain ⟨t, ht, inv, completed, left⟩ := (hi.set_turns (mid ++ .engine :: rest)).run_command busy rfl within count
  exact ⟨t, (run_succ _ first).trans ht, inv, (Continued.of_host busy _ _ _ _).completed completed, left⟩

/-- The past an accepted EXPAND_KEY leaves; the block in it is none the invariants of an expansion name. -/
def Latched.expanding (s : State) : Latched := ⟨keyBytes s.KEY, inputBytes s.DIN, false⟩

/-- EXPAND_KEY with the engine's turns it needs (R177, R181). -/
theorem run_expandKey {nr : Nat} (hp : s.phase = .idle) (hv : cmdOf v = .expandKey)
    (hn : nrOf s.KEYCFG_NK.toNat = some nr) (hl : s.KEYCFG_KEYLEN.toNat = 4 * s.KEYCFG_NK.toNat)
    (hturns : s.turns = .ctrl v :: (mid ++ .engine :: rest)) (within : mid.all Turn.withinCommand = true)
    (count : mid.count .engine + 1 = 4 * (nr + 1) - s.KEYCFG_NK.toNat) :
    ∃ t, run (mid.length + 2) s = .next t ∧ t.Inv (.expanding s) ∧
      t = { s with RK := t.RK, phase := .idle, KEY_VALID := true, DONE := true, SNK := s.KEYCFG_NK,
                   SNR := BitVec.ofNat 4 nr, KI := t.KI, ERR := if mid.any Turn.writesRegister then 5#3 else 0#3,
                   turns := rest, reads := t.reads, draws := t.draws } ∧
      t.KI.toNat = 4 * (nr + 1) ∧
      (∀ i, i < 4 * (nr + 1) → rkWord t i = (schedulePrefix (keyBytes s.KEY) s.KEYCFG_NK.toNat (4 * (nr + 1)))[i]?) ∧
      ∀ i, 4 * (nr + 1) ≤ i → rkWord t i = rkWord s i := by
  have inv : (expandAccepted nr { s with DONE := false, KEY_VALID := false }).Inv (.expanding s) :=
    .expandAccepted (h := .expanding s) hn
  have remaining : remainingSteps (expandAccepted nr { s with DONE := false, KEY_VALID := false }) =
      4 * (nr + 1) - s.KEYCFG_NK.toNat := by
    rw [remainingSteps_of_expand (expandAccepted_phase _ _), expandAccepted_SNR, expandAccepted_KI, toNat_nrOf hn,
      BitVec.toNat_setWidth_of_le (by decide)]
  have accepted (turns : List Turn) : commandIdle (cmdOf v) { s with turns := turns } =
      { expandAccepted nr { s with DONE := false, KEY_VALID := false } with turns := turns } := by
    rw [hv, commandIdle, expandKeyIdle_of_legal (by exact hn) (by exact hl), expandAccepted, expandAccepted]
  obtain ⟨t, ht, inv, completed, turns, err⟩ :=
    inv.run_accepted (by simp) hp hturns accepted within (count.trans remaining.symm)
  obtain ⟨frame, counter, above⟩ := completed.of_expandAccepted hn
  have snr : t.SNR = BitVec.ofNat 4 nr := by rw [frame]
  have snk : t.SNK = s.KEYCFG_NK := by rw [frame]
  have schedule := inv.schedule (by rw [frame])
  rw [HoldsSchedule, snr, toNat_nrOf hn, snk] at schedule
  rw [expandAccepted_ERR] at err
  exact ⟨t, ht, inv, by rw [turns, err] at frame; exact frame, counter, schedule, above⟩

/-- ENCRYPT_BLOCK with the engine's turns it needs (R178, R182–R184). -/
theorem State.Inv.run_encryptBlock (hi : s.Inv h) (hp : s.phase = .idle) (hv : cmdOf v = .encryptBlock)
    (valid : s.KEY_VALID = true) (hturns : s.turns = .ctrl v :: (mid ++ .engine :: rest))
    (within : mid.all Turn.withinCommand = true) (count : mid.count .engine = s.SNR.toNat) :
    ∃ t, run (mid.length + 2) s = .next t ∧
      t.DOUT = packBlock (cipher (inputBytes s.DIN) (rkValue s) s.SNR.toNat) ∧
      t = { s with DOUT := t.DOUT, ST := t.ST, RND := s.SNR + 1#4, phase := .idle, DONE := true,
                   ERR := if mid.any Turn.writesRegister then 5#3 else 0#3, turns := rest, reads := t.reads,
                   draws := t.draws } := by
  have remaining : remainingSteps (Machine.encryptAccepted { s with DONE := false }) = s.SNR.toNat + 1 :=
    remainingSteps_of_encrypt rfl
  have accepted (turns : List Turn) : commandIdle (cmdOf v) { s with turns := turns } =
      { Machine.encryptAccepted { s with DONE := false } with turns := turns } := by
    rw [hv, commandIdle, encryptBlockIdle_of_valid (by exact valid)]
    rfl
  obtain ⟨t, ht, inv, completed, turns, err⟩ :=
    (hi.encryptAccepted valid).run_accepted (by simp) hp hturns accepted within (by rw [remaining, count])
  have frame := completed.of_encryptAccepted
  have dout := (inv.encrypted rfl completed.phase_eq).2
  have rk : t.RK = s.RK := by rw [frame]
  have snr : t.SNR = s.SNR := by rw [frame]
  rw [rkValue_congr rk, snr] at dout
  exact ⟨t, ht, dout, by rw [turns, err] at frame; exact frame⟩

end

/-- Settles O47: the invariants at the command's end name the schedule. -/
theorem expandKeyComputesKeyExpansion : Obligations.ExpandKeyComputesKeyExpansion := by
  intro s v nr mid hp hv hn hl within count
  obtain ⟨t, ht, -, frame, counter, schedule, above⟩ :=
    run_expandKey (s := { s with turns := .ctrl v :: (mid ++ [.engine]) }) hp hv hn hl rfl within count
  have snr : t.SNR = BitVec.ofNat 4 nr := by rw [frame]
  exact ⟨t, _, ht, keyExpansion_of_nrOf _ hn, schedulePrefix_length _ _ _, schedule, above, by rw [snr]; exact frame,
    by rw [snr, toNat_nrOf hn], counter⟩

/-- Settles O48. -/
theorem encryptBlockComputesCipher : Obligations.EncryptBlockComputesCipher :=
  fun _ _ v mid hi hp hv valid within count =>
    (hi.set_turns (.ctrl v :: (mid ++ [.engine]))).run_encryptBlock hp hv valid rfl within count

/-! The two commands together. -/

theorem exists_step_of_run_succ {n : Nat} {s t : State} (h : run (n + 1) s = .next t) :
    ∃ u, step s = .next u ∧ run n u = .next t := by
  have h := (Host.Core.run.eq_def core (n + 1) s).symm.trans h
  dsimp only at h
  split at h
  case h_1 u hs => exact ⟨u, hs, h⟩
  case h_2 => cases h
  case h_3 => cases h

/-- A run goes on from where its first part ends. -/
theorem run_add {m n : Nat} {s t : State} (h : run m s = .next t) : run (m + n) s = run n t := by
  induction m generalizing s with
  | zero => cases h; rw [Nat.zero_add]
  | succ m ih =>
    obtain ⟨u, hu, h⟩ := exists_step_of_run_succ h
    rw [Nat.succ_add, run_succ _ hu, ih h]

/-- The transform reads the words of its round keys only (R149). -/
theorem cipher_congr (inp : Vector Byte 16) {W W' : Nat → Word} {nr : Nat} (h : ∀ i, i < 4 * (nr + 1) → W i = W' i) :
    cipher inp W nr = cipher inp W' nr := by
  have key {r : Nat} (hr : r ≤ nr) : roundKeyOf W r = roundKeyOf W' r := by
    simp only [roundKeyOf]
    rw [h _ (by omega), h _ (by omega), h _ (by omega), h _ (by omega)]
  have rounds {n : Nat} (hn : n ≤ nr) : afterRounds inp W n = afterRounds inp W' n := by
    induction n with
    | zero => rw [afterRounds, afterRounds, key hn]
    | succ n ih => rw [afterRounds, afterRounds, ih (by omega), key hn]
  rw [cipher, cipher, rounds (by omega), key le_rfl]

/-- Turns of the engine alone may interleave with a command, and none of them writes. -/
theorem replicate_engine_turns (n : Nat) :
    (List.replicate n Turn.engine).all Turn.withinCommand = true ∧ (List.replicate n Turn.engine).count .engine = n ∧
      (List.replicate n Turn.engine).any Turn.writesRegister = false := by
  refine ⟨?_, List.count_replicate_self, ?_⟩
  · simp [Turn.withinCommand]
  · simp [Turn.writesRegister]

/-- Settles O49: EXPAND_KEY ends in a state that meets the invariants, from which ENCRYPT_BLOCK is then run. -/
theorem coreEncryptsUnderItsKey : Obligations.CoreEncryptsUnderItsKey := by
  intro s nr hp hn hl
  have hk := (nrOf_eq_some _ _).1 hn
  obtain ⟨n, steps⟩ : ∃ n, 4 * (nr + 1) - s.KEYCFG_NK.toNat = n + 1 := Nat.exists_eq_add_of_le' (by omega)
  obtain ⟨within, count, -⟩ := replicate_engine_turns n
  obtain ⟨within', count', noWrite'⟩ := replicate_engine_turns nr
  rw [steps, List.replicate_succ', List.replicate_succ', List.append_assoc,
    show n + 1 + nr + 3 = n + 2 + (nr + 2) by omega]
  obtain ⟨t, ht, inv, frame, -, schedule, -⟩ := run_expandKey (v := 1#32)
    (s := { s with turns := .ctrl 1#32 :: (List.replicate n .engine ++ ([.engine] ++
        .ctrl 2#32 :: (List.replicate nr .engine ++ [.engine]))) })
    hp (by decide) hn hl rfl within (by rw [count, steps])
  have snr : t.SNR.toNat = nr := by rw [frame]; exact toNat_nrOf hn
  obtain ⟨u, hu, dout, frame'⟩ := inv.run_encryptBlock (v := 2#32) (by rw [frame]) (by decide) (by rw [frame])
    (by rw [frame]; rfl) within' (count'.trans snr.symm)
  rw [List.length_replicate] at ht hu
  have din : t.DIN = s.DIN := by rw [frame]
  have key : t.KEY = s.KEY := by rw [frame]
  have valid : t.KEY_VALID = true := by rw [frame]
  rw [snr, din] at dout
  refine ⟨u, _, (run_add ht).trans hu, keyExpansion_of_nrOf _ hn, ?dout, by rw [frame'], by rw [frame'],
    by rw [frame']; exact valid, by rw [frame', noWrite']; rfl, by rw [frame']; exact key, by rw [frame']; exact din⟩
  rw [dout, cipher_congr _ fun i hi => ?_]
  rw [rkValue, schedule i hi, List.getD_eq_getElem?_getD]

end Sys2Proof.Machine
end

section
/-! SUPPORT. The errors of a host transaction (60_exceptions.md R202–R204): what each command leaves in ERR, what a
rejected one leaves alone, and that no operation clears ERR but an accepted command and reset. -/

namespace Sys2Proof.Machine

/-! What ERR holds after a command and after a write (R202). -/

section
variable {s t : State} {a : Offset} {v : Word}

/-- EXPAND_KEY judges the class before the length (R177, R202). -/
theorem expandKeyIdle_ERR (s : State) :
    (expandKeyIdle s).ERR =
      if ¬ (s.KEYCFG_NK = 4#4 ∨ s.KEYCFG_NK = 6#4 ∨ s.KEYCFG_NK = 8#4) then 1#3
      else if s.KEYCFG_KEYLEN.toNat ≠ 4 * s.KEYCFG_NK.toNat then 2#3 else 0#3 := by
  simp only [← nrOf_toNat_eq_none]
  rcases expandKeyIdle_cases s with ⟨hn, ht⟩ | ⟨nr, hn, hl, ht⟩ | ⟨nr, hn, hl, ht⟩ <;> rw [ht]
  · rw [if_pos hn]
  · rw [if_neg (by simp [hn]), if_pos hl]
  · rw [if_neg (by simp [hn]), if_neg (not_not.2 hl), expandAccepted_ERR]

theorem encryptBlockIdle_ERR (s : State) : (encryptBlockIdle s).ERR = if s.KEY_VALID = false then 4#3 else 0#3 := by
  rcases encryptBlockIdle_cases s with ⟨hv, ht⟩ | ⟨hv, ht⟩ <;> rw [ht, hv] <;> rfl

/-- The four commands an idle core can be given, by the value written to CTRL (R71, R175). -/
theorem ctrlIdle_ERR (v : Word) (s : State) :
    (ctrlIdle v s).ERR =
      if v.toNat % 4 = 3 then 3#3
      else if v.toNat % 4 = 1 then (expandKeyIdle s).ERR
      else if v.toNat % 4 = 2 then (encryptBlockIdle s).ERR
      else s.ERR := by
  have cmd : v.toNat % 4 < 4 := Nat.mod_lt _ (by decide)
  rw [ctrlIdle, cmdOf_eq]
  generalize v.toNat % 4 = k at cmd
  interval_cases k <;> rfl

/-- No write to KEYCFG, KEYj or DINj records an error while idle (R172–R174). -/
theorem exec_wr_ERR_of_idle (hp : s.phase = .idle) (h0 : a.toNat ≠ 0x000) (h : exec (.wr a v) s = .next t) :
    t.ERR = s.ERR := by
  have noCommand : commandOf (.wr a v) = none := if_neg fun ha => h0 (by rw [ha]; rfl)
  rcases exec_wr_next h noCommand with rfl | ⟨hb, -⟩ | ⟨-, -, rfl⟩ | ⟨-, j, -, rfl⟩ | ⟨-, j, -, rfl⟩
  · rfl
  · exact absurd hp hb
  · rfl
  · rfl
  · rfl

/-- A read records no error (R202). -/
theorem exec_rd_ERR (h : exec (.rd a) s = .next t) : t.ERR = s.ERR := by
  obtain ⟨-, ⟨u, -, rfl⟩ | ⟨-, rfl⟩⟩ := exec_rd_next h <;> rfl

end

/-- Settles O28: a write is judged by its register, then by the phase, then by the command's own checks. -/
theorem errorPriority : Obligations.ErrorPriority := by
  refine ⟨fun s t a h => exec_rd_ERR h, fun s a v ha => ⟨_, exec_wr s a v ha, ?_⟩⟩
  split
  case isTrue ignored => rw [writeReg_of_not_writable (Bool.eq_false_iff.2 (mt (writable_regAt ha).1 ignored))]
  case isFalse writable =>
    split
    case isTrue busy => rw [writeReg_of_busy busy, if_pos ((writable_regAt ha).2 (not_not.1 writable))]
    case isFalse notBusy =>
      have idle : s.phase = .idle := not_not.1 notBusy
      split
      case isTrue input => exact exec_wr_ERR_of_idle idle input (exec_wr s a v ha)
      case isFalse ctrl =>
        obtain rfl : a = 0x000#12 := BitVec.eq_of_toNat_eq (not_not.1 ctrl)
        rw [show regAt 0x000#12 = .ctrl by decide, writeReg, whenIdle_idle _ _ idle, ctrlIdle_ERR, expandKeyIdle_ERR,
          encryptBlockIdle_ERR]

/-! Rejection and acceptance (R203, R204). -/

section
variable {i : Instr} {c : Cmd} {s t : State}

/-- A command that leaves the phase as it was is not accepted: dropped, NOP or rejected. -/
theorem command_frame_of_phase_eq (hp : (whenIdle (commandIdle c) s).phase = s.phase) :
    ∃ done valid err, whenIdle (commandIdle c) s = { s with DONE := done, KEY_VALID := valid, ERR := err } := by
  rcases command_cases c s with ⟨-, ht⟩ | ⟨-, -, ht⟩ | ⟨-, -, e, -, ht⟩ | ⟨idle, -, nr, -, -, ht⟩ | ⟨-, -, -, ht⟩ |
    ⟨idle, -, -, ht⟩ | ⟨-, -, ht⟩
  · exact ⟨_, _, _, ht⟩
  · exact ⟨_, _, _, ht⟩
  · exact ⟨_, _, _, ht⟩
  · rw [ht, idle, expandAccepted_phase] at hp
    cases hp
  · exact ⟨_, _, _, ht⟩
  · rw [ht, idle, encryptAccepted_phase] at hp
    cases hp
  · exact ⟨_, _, _, ht⟩

/-- Only an acceptance sets ERR to 0 among the commands: the others leave it or record a code from 1 to 5. -/
theorem accepted_of_command_clears_ERR (hs : s.ERR ≠ 0#3) (h0 : (whenIdle (commandIdle c) s).ERR = 0#3) :
    (c = .expandKey ∨ c = .encryptBlock) ∧ s.phase = .idle ∧ (whenIdle (commandIdle c) s).phase ≠ .idle := by
  rcases command_cases c s with ⟨-, ht⟩ | ⟨-, -, ht⟩ | ⟨-, -, e, he, ht⟩ | ⟨hp, hc, nr, -, -, ht⟩ | ⟨-, -, -, ht⟩ |
    ⟨hp, hc, -, ht⟩ | ⟨-, -, ht⟩ <;> rw [ht] at h0 ⊢
  · cases h0
  · exact absurd h0 hs
  · rcases he with rfl | rfl <;> cases h0
  · exact ⟨.inl hc, hp, by simp⟩
  · cases h0
  · exact ⟨.inr hc, hp, by simp⟩
  · cases h0

end

/-- Settles O29: what is no acceptance names DONE, KEY_VALID and ERR alone (`command_frame_of_phase_eq`). -/
theorem rejectedCommandIsPrecise : Obligations.RejectedCommandIsPrecise := by
  intro i c s t hc h hp
  rw [exec_command hc] at h
  cases h
  obtain ⟨done, valid, err, ht⟩ := command_frame_of_phase_eq hp
  rw [ht]

/-- Settles O30: of the operations without a command only reset sets ERR to 0. -/
theorem errorClearedOnlyByAcceptance : Obligations.ErrorClearedOnlyByAcceptance := by
  intro i s t h hs ht
  cases hc : commandOf i with
  | some c =>
    rw [exec_command hc] at h
    cases h
    obtain ⟨command, idle, busy⟩ := accepted_of_command_clears_ERR hs ht
    exact .inr ⟨command.imp (congrArg some) (congrArg some), idle, busy⟩
  | none =>
    cases exec_effect h with
    | reset => exact .inl rfl
    | kept _ _ err =>
      rcases err with rfl | rfl
      · exact absurd ht hs
      · cases ht
    | rejected command | expandAccepted command | encryptAccepted command => rw [hc] at command; cases command
    | keycfg | key | din | kexpStep | kexpLast | encInitial | encRound | encFinal => exact absurd ht hs

end Sys2Proof.Machine
end

section
/-! SUPPORT. The end of a run (70_reset_and_hazards.md R213, R245): when it has ended, what is then observed, and that
the engine leaves it so. -/

namespace Sys2Proof.Machine

section
variable {s : State} {rest : List Turn}

theorem finished_iff (s : State) : s.finished = true ↔ (∀ t ∈ s.turns, t.byHost = false) ∧ s.phase = .idle := by
  simp [State.finished, busy_eq_false]

/-- The host's turns are the CTRL writes and the bus transactions (R13). -/
theorem forall_byHost_eq_false_iff (turns : List Turn) :
    (∀ t ∈ turns, t.byHost = false) ↔ (∀ v, .ctrl v ∉ turns) ∧ ∀ size w, .bus size w ∉ turns := by
  refine ⟨fun h => ⟨fun v hm => ?ctrl, fun size w hm => ?bus⟩, fun ⟨ctrl, bus⟩ t hm => ?others⟩
  case ctrl => simpa [Turn.byHost] using h _ hm
  case bus => simpa [Turn.byHost] using h _ hm
  case others =>
    cases t with
    | ctrl v => exact absurd hm (ctrl v)
    | bus size w => exact absurd hm (bus size w)
    | engine | rst => rfl

theorem observation_of_finished (h : s.finished = true) (n : Nat) : observation n s = some (observe s) := by
  cases n <;> simp [observation, h]

theorem observation_succ_of_step {t : State} (h : s.finished = false) (ht : step s = .next t) (n : Nat) :
    observation (n + 1) s = observation n t := by
  simp [observation, h, ht]

/-- The engine has no step while idle, and its turn is taken without effect (R76, R180). -/
theorem step_engine_turn_of_idle (hturns : s.turns = .engine :: rest) (hp : s.phase = .idle) :
    step s = .next { s with turns := rest } :=
  step_of_turns_cons_error (e := .engineIdle) hturns (by rw [formOf, hp]; rfl)

theorem finished_of_finished_cons {t : Turn} (h : s.finished = true) (hturns : s.turns = t :: rest) :
    ({ s with turns := rest } : State).finished = true := by
  obtain ⟨hosts, idle⟩ := (finished_iff s).1 h
  rw [hturns] at hosts
  exact (finished_iff _).2 ⟨(List.forall_mem_cons.1 hosts).2, idle⟩

end

/-- Settles O8: an ended run has an idle core, whose step is none or the engine's turn passing without effect. -/
theorem finishedRunIsStable : Obligations.FinishedRunIsStable := by
  intro s
  have idle (h : s.finished = true) : s.phase = .idle := ((finished_iff s).1 h).2
  refine ⟨by rw [finished_iff, forall_byHost_eq_false_iff, and_assoc], observation_of_finished,
    fun n t h ht => observation_succ_of_step h ht n, fun h hturns => ?noTurn, fun rest h hturns => ?engineTurn⟩
  case noTurn => exact step_of_nextForm_none (nextForm_of_turns_nil_of_idle hturns (idle h))
  case engineTurn => exact ⟨step_engine_turn_of_idle hturns (idle h), finished_of_finished_cons h hturns⟩

end Sys2Proof.Machine
end

section
/-! SUPPORT. Reset (70_reset_and_hazards.md R230–R232): the values it leaves, that they meet the invariants and stay
while nothing is placed, and that they hold no usable schedule. -/

namespace Sys2Proof.Machine

theorem exec_reset (s : State) : exec .reset s = .next (resetCore s) := rfl

/-- STATUS reads 0 after reset: each of its fields does (R26, R230). -/
theorem readAt_status_resetCore (s : State) : readAt 0x004#12 (resetCore s) = some 0#32 := by
  simp [readAt_status, statusWord, busy, phaseCode]

/-- The machine's reset state is what a reset leaves where nothing was placed, read or drawn before. -/
theorem resetCore_of_nothing_placed : resetCore { State.reset with draws := 0 } = State.reset := rfl

/-- Settles O25: reset answers `resetCore s`, whose registers hold their reset values whatever `s` is. -/
theorem resetEffect : Obligations.ResetEffect := fun s =>
  ⟨resetCore s, exec_reset s, rfl, rfl, fun j => Vector.getElem_replicate j.isLt,
    fun j => Vector.getElem_replicate j.isLt, fun j => Vector.getElem_replicate j.isLt,
    fun i => Vector.getElem_replicate i.isLt, rfl, rfl, rfl, rfl, rfl, rfl, rfl, rfl, readAt_status_resetCore s, rfl,
    rfl⟩

theorem run_of_step_self {s : State} (h : step s = .next s) (n : Nat) : run n s = .next s := by
  induction n with
  | zero => exact run_zero s
  | succ n ih => rw [run_succ n h, ih]

/-- Settles O26: its values are those a reset leaves, and an idle core with no turn to come keeps its state. -/
theorem resetStateValues : Obligations.ResetStateValues := by
  obtain ⟨t, ht, hnk, hlen, hkey, hdin, hdout, hrk, hphase, hdone, hvalid, herr, hsnk, hsnr, hki, hrnd, -⟩ :=
    resetEffect { State.reset with draws := 0 }
  rw [exec_reset, resetCore_of_nothing_placed] at ht
  cases ht
  have stays : step State.reset = .next State.reset :=
    step_of_nextForm_none (nextForm_of_turns_nil_of_idle rfl hphase)
  exact ⟨hnk, hlen, hkey, hdin, hdout, hrk, hphase, hdone, hvalid, herr, hsnk, hsnr, hki, hrnd,
    run_of_step_self stays⟩

/-- Settles O27: the core is idle after reset, so ENCRYPT_BLOCK is not dropped, and it is rejected for KEY_VALID = 0. -/
theorem noScheduleAfterReset : Obligations.NoScheduleAfterReset := by
  intro s t h
  rw [exec_reset] at h
  cases h
  refine ⟨rfl, rfl, ?_⟩
  rw [exec_command_of_idle (c := .encryptBlock) rfl (resetCore_phase s), commandIdle,
    encryptBlockIdle_of_invalid (resetCore_KEY_VALID s)]
  rfl

/-- Settles O43: right after reset the core is idle with DONE = 0, claims no schedule, and ERR is 0. -/
theorem resetMeetsInvariants : Obligations.ResetMeetsInvariants := by
  intro key block
  have inv := State.Inv.of_idle_of_not_done (h := ⟨key, block, false⟩) (s := State.reset) (t := State.reset) rfl rfl
    (fun valid => by cases valid) (by decide)
  rwa [Latched.after_of_not_done _ rfl rfl] at inv

end Sys2Proof.Machine
end

section
/-! SUPPORT. A register written while idle reads back (70_reset_and_hazards.md R240): reading after writing, for the same
register and for another, and the offsets that hold one register each (20_memory.md R52). -/

namespace Sys2Proof.Machine

/-- The offset of a register of the window (R52). `reserved` stands for many; 0 is given for it. -/
def Reg.offset : Reg → Nat
  | .ctrl => 0x000
  | .status => 0x004
  | .keycfg => 0x008
  | .key j => 0x010 + 4 * j.val
  | .din j => 0x030 + 4 * j.val
  | .dout j => 0x040 + 4 * j.val
  | .rk i => 0x100 + 4 * i.val
  | .reserved => 0

section
variable {a b : Offset}

theorem offset_regAt (ha : a.toNat % 4 = 0) (hr : regAt a ≠ .reserved) : (regAt a).offset = a.toNat := by
  rcases regAt_cases a ha with ⟨ho, h⟩ | ⟨ho, h⟩ | ⟨ho, h⟩ | ⟨j, ho, h⟩ | ⟨j, ho, h⟩ | ⟨j, ho, h⟩ | ⟨i, ho, h⟩ |
    ⟨-, h⟩
  on_goal 8 => exact absurd h hr
  all_goals rw [h, ho, Reg.offset]

/-- No two aligned offsets hold the same register (R52). -/
theorem eq_of_regAt_eq (ha : a.toNat % 4 = 0) (hb : b.toNat % 4 = 0) (hr : regAt a ≠ .reserved)
    (h : regAt b = regAt a) : b = a := by
  apply BitVec.eq_of_toNat_eq
  rw [← offset_regAt ha hr, ← offset_regAt hb (h ▸ hr), h]

theorem regAt_eq_keycfg_iff (ha : a.toNat % 4 = 0) : regAt a = .keycfg ↔ a.toNat = 0x008 := by
  constructor
  · intro h
    rw [← offset_regAt ha (by simp [h]), h, Reg.offset]
  · intro h
    obtain rfl : a = 0x008#12 := BitVec.eq_of_toNat_eq h
    rfl

end

section
variable {s : State} {r q : Reg} (hp : s.phase = .idle) (hc : r ≠ .ctrl)
include hp hc

/-- Reading a written register: KEYCFG drops the reserved bits, the others keep the value (R36, R240). -/
theorem readReg_writeReg_same (hw : r.writable = true) (v : Word) :
    readReg r (writeReg r v s) = some (if r = .keycfg then v &&& 0x00003F0F#32 else v) := by
  cases r with
  | ctrl => exact absurd rfl hc
  | keycfg => rw [writeReg, whenIdle_idle _ s hp, readReg, keycfgWord_writeKeycfg, if_pos rfl]
  | key j => simp [writeReg, whenIdle_idle _ s hp, readReg]
  | din j => simp [writeReg, whenIdle_idle _ s hp, readReg]
  | status | dout | rk | reserved => cases hw

/-- A write that issues no command changes what no other register reads (R172–R174). -/
theorem readReg_writeReg_other (hq : q ≠ r) (v : Word) : readReg q (writeReg r v s) = readReg q s := by
  cases r with
  | ctrl => exact absurd rfl hc
  | keycfg =>
    rw [writeReg, whenIdle_idle _ s hp]
    cases q with
    | keycfg => exact absurd rfl hq
    | _ => rfl
  | key j =>
    rw [writeReg, whenIdle_idle _ s hp]
    cases q with
    | key i => exact congrArg some (Vector.getElem_set_ne j.isLt i.isLt fun h => hq (by rw [Fin.ext h]))
    | _ => rfl
  | din j =>
    rw [writeReg, whenIdle_idle _ s hp]
    cases q with
    | din i => exact congrArg some (Vector.getElem_set_ne j.isLt i.isLt fun h => hq (by rw [Fin.ext h]))
    | _ => rfl
  | status | dout | rk | reserved => rfl

end

/-- Settles O14: the offset holds a writable register other than CTRL, and no other offset holds the same. -/
theorem writtenRegisterReadsBack : Obligations.WrittenRegisterReadsBack := by
  intro s a v hp ha input
  have writable : (regAt a).writable = true := (writable_regAt ha).2 (.inr input)
  have notReserved : regAt a ≠ .reserved := fun h => by rw [h] at writable; cases writable
  have notCtrl : regAt a ≠ .ctrl := fun h => by
    have := offset_regAt ha notReserved
    rw [h, Reg.offset] at this
    omega
  refine ⟨writeReg (regAt a) v s, exec_wr s a v ha, ?readsBack, fun b hb hne => ?otherOffsets⟩
  case readsBack => simp only [readAt, readReg_writeReg_same hp notCtrl writable, regAt_eq_keycfg_iff ha]
  case otherOffsets => exact readReg_writeReg_other hp notCtrl (mt (eq_of_regAt_eq ha hb notReserved) hne) v

end Sys2Proof.Machine
end

section
/-! SUPPORT. Words of the opcode table (30_encoding.md R70, R75, R77): what `decodeTableWord` answers for the form a word
stands for. -/

namespace Sys2Proof.Machine

section
variable {nbits w : Nat} {f : Form} {i : Instr}

theorem decodeTableWord_eq_some (form : formOfTableWord nbits w = some f) (selects : decode f = .ok i) :
    decodeTableWord nbits w = some i := by
  simp [decodeTableWord, form, selects]

theorem decodeTableWord_eq_none {e : DecodeError} (form : formOfTableWord nbits w = some f)
    (refused : decode f = .error e) : decodeTableWord nbits w = none := by
  simp [decodeTableWord, form, refused]

/-- A word that stands for the encoding of a well-formed operation decodes to it. -/
theorem decodeTableWord_of_encode (wellFormed : i.wf = true) (form : formOfTableWord nbits w = some (encode i)) :
    decodeTableWord nbits w = some i :=
  decodeTableWord_eq_some form (decodeInvertsEncode i wellFormed)

end

/-- Settles O2: eight words are the encodings of their operations, two commands have their reserved bits set, which
CMD alone decides, and bits 33:32 of the last word are not 0. -/
theorem sampleWordsDecode : Obligations.SampleWordsDecode := by
  obtain ⟨nopReserved, -, -, -⟩ := commandDecodeUsesCmdAlone 0xFFFFFFFC#32
  obtain ⟨-, expandKeyReserved, -, -⟩ := commandDecodeUsesCmdAlone 0xFFFFFFFD#32
  exact ⟨decodeTableWord_of_encode rfl rfl,
    decodeTableWord_eq_some rfl (nopReserved rfl),
    decodeTableWord_of_encode rfl rfl,
    decodeTableWord_eq_some rfl (expandKeyReserved rfl),
    decodeTableWord_of_encode rfl rfl,
    decodeTableWord_of_encode rfl rfl,
    decodeTableWord_of_encode rfl rfl,
    decodeTableWord_of_encode rfl rfl,
    decodeTableWord_of_encode rfl rfl,
    decodeTableWord_of_encode rfl rfl,
    decodeTableWord_eq_none rfl (decodeBus_misaligned (w := 0x000200000000#45) (by decide))⟩

end Sys2Proof.Machine
end
